-- ==== Sys2Proof/Word.lean ====
section
/-! DEFINITION. Word types of the core: 8-bit cells (R21, R22), the 9-bit program counter range (R25). -/

namespace Sys2Proof

/-- A memory cell, a register or an instruction byte: an unsigned 8-bit value (R9, R21, R22). -/
abbrev Byte := BitVec 8

/-- The program counter's values, 0..256 (R25): 256 is reached only past an instruction that ends at 255. -/
abbrev Pc := Fin 257

/-- A register number, r0 to r7 (R22). -/
abbrev RegIx := Fin 8

/-- The register file: eight 8-bit cells (R22). -/
abbrev RegFile := Vector Byte 8

/-- One draw of `INIT_REGS`: the reset values of r0 to r6 (R7, R180). -/
abbrev InitRegs := Vector Byte 7

end Sys2Proof
end

