-- ==== Sys2Proof/Config.lean ====
section
/-! DEFINITION. The implementation parameters of R7. -/

namespace Sys2Proof.Config

/-- `MEM_SIZE`: the number of memory cells; also `LOAD_MAX` (R7, R183). -/
def memSize : Nat := 256

/-- `SP_INDEX`: the stack pointer is r7 (R7, R23). -/
def spIndex : RegIx := 7

/-- `SP_RESET`: the stack pointer after reset (R7, R180). -/
def spReset : Byte := 0xF4#8

/-- `PC_RESET` (R7, R180). -/
def pcReset : Pc := 0

/-- The draw of `INIT_REGS` that `State.reset` uses.
DESIGN CHOICE (unsafe, log entry 1): the spec leaves these seven bytes unconstrained (R180, D9).
No statement rests on it: statements about reset hold for every draw (`State.resetWith`). -/
def initRegs : InitRegs := Vector.replicate 7 0#8

end Sys2Proof.Config
end

