-- ==== Sys2Proof/Machine/State.lean ====
section
/-! DEFINITION. The state of the core (R20) with its observation channel (R30), the fault record (R160, R161),
and the reset state (R180). -/

namespace Sys2Proof.Machine

/-- The faults of R160, each with the info it records. A fault is recorded in `status` (R161) by a step that
answers a NEXT state (log entry 3): no step, meaning or interface command ends in `Host.Outcome.fault`.
The spec describes each one and its effect, so none is a departure from the hardware. -/
inductive Fault where
  /-- Raised by the fetch, an operand read, PUSH and POP for an address outside 0..255 (R42). Safe. -/
  | outOfBounds (addr : Int)
  /-- Raised by every instruction but HLT for a register operand byte of 8 or more (R24). Safe. -/
  | invalidRegister (index : Byte)
  /-- Raised by DIV when x[B] = 0 (R127). Safe. -/
  | divisionByZero
  /-- Raised by a step whose opcode byte is none of the nine (R67, R83). Safe. -/
  | unknownOpcode (ir : Byte)
  /-- Set by `load` for an image of `length` > 256 bytes (R183). Safe. -/
  | programTooLarge (length : Nat)
  deriving DecidableEq, Repr

/-- What the model gives no meaning to. -/
inductive Refusal where
  /-- Raised by an arm of `exec` whose instruction has no meaning yet: no arm is left that does. Safe. -/
  | notModelled (mnemonic : String)
  /-- Raised by the interface's `load` when it does not come once, between reset and the first step:
  the spec gives it no meaning then (R184). Safe. -/
  | loadOutsideInterface
  deriving DecidableEq, Repr

/-- The output events of R30. -/
inductive Event where
  /-- `Print(v)`, from PRN. -/
  | print (v : Byte)
  /-- `HaltNotice`, from HLT. -/
  | haltNotice
  deriving DecidableEq, Repr

/-- The halt state machine (R26). `halted` is the source's halted flag (R27). -/
inductive Status where
  | running
  | halted
  | faulted (f : Fault)
  deriving DecidableEq, Repr

/-- The memory as the list of its cells that differ from an unlisted one (`Memory.unlisted`), addresses
strictly rising: `Memory.wf` in Machine/Ops.lean. -/
abbrev Memory := List Host.Cell

/-- The whole state (R20), and the observation channel beside it (R30, log entry 2). -/
structure State where
  /-- The memory (R21). -/
  mem : Memory
  /-- The register file r0 to r7 (R22). -/
  x : RegFile
  /-- The program counter (R25). -/
  pc : Pc
  /-- The halt state machine with the fault record (R26, R161). -/
  status : Status
  /-- The events emitted so far, oldest first (R30). -/
  out : List Event
  deriving DecidableEq, Repr

/-- Reset with a draw of `INIT_REGS` (R180): memory zero, r7 = 0xF4, pc 0, Running, nothing emitted. -/
def State.resetWith (init : InitRegs) : State where
  mem := []
  x := init.push Config.spReset
  pc := Config.pcReset
  status := .running
  out := []

/-- The machine right after reset. r0 to r6 hold `Config.initRegs` (DESIGN CHOICE, unsafe, log entry 1). -/
def State.reset : State := State.resetWith Config.initRegs

end Sys2Proof.Machine
end

