-- ==== Sys2Proof/Machine/Ops.lean ====
section
/-! DEFINITION. The named operations over memory, pc, output and status, and the one way a fault is taken. -/

namespace Sys2Proof.Machine

/-- What a cell that the list does not name holds: the reset contents of memory (R21, log entry 4). -/
def Memory.unlisted : Byte := 0x00#8

/-- The canonical form: addresses strictly rising, all of them addresses of the core, no cell equal to
an unlisted one. -/
abbrev Memory.wf (m : Memory) : Prop :=
  List.Pairwise (fun c d => c.1 < d.1) m ∧ ∀ c ∈ m, c.1 < Config.memSize ∧ c.2 ≠ Memory.unlisted

/-- The byte at an address. -/
def Memory.get : Memory → Nat → Byte
  | [], _ => Memory.unlisted
  | (b, v) :: m, a => if a = b then v else Memory.get m a

/-- Put a cell in its place in the rising order. -/
def Memory.insert : Memory → Nat → Byte → Memory
  | [], a, v => [(a, v)]
  | (b, w) :: m, a, v =>
    if a < b then (a, v) :: (b, w) :: m
    else if a = b then (a, v) :: m
    else (b, w) :: Memory.insert m a v

/-- Take a cell out of the list. -/
def Memory.erase (m : Memory) (a : Nat) : Memory := List.filter (fun c => c.1 != a) m

/-- Store one byte, keeping the canonical form. -/
def Memory.set (m : Memory) (a : Nat) (v : Byte) : Memory :=
  if v = Memory.unlisted then Memory.erase m a else Memory.insert m a v

/-- Store bytes at ascending addresses. -/
def Memory.storeBytes (m : Memory) (base : Nat) : List Byte → Memory
  | [] => m
  | v :: vs => Memory.storeBytes (Memory.set m base v) (base + 1) vs

/-- The bounds check of every memory access (R42): an address of the core, or OutOfBounds. -/
def checkAddress (addr : Int) : Except Fault Nat :=
  if 0 ≤ addr ∧ addr < 256 then .ok addr.toNat else .error (.outOfBounds addr)

/-- `MemRead(addr, 1)` (R40). -/
def memRead (m : Memory) (addr : Int) : Except Fault Byte :=
  match checkAddress addr with
  | .ok a => .ok (Memory.get m a)
  | .error f => .error f

/-- `MemWrite(addr, 1, v)` (R41). -/
def memWrite (m : Memory) (addr : Int) (v : Byte) : Except Fault Memory :=
  match checkAddress addr with
  | .ok a => .ok (Memory.set m a v)
  | .error f => .error f

/-- Taking a fault (R161, R162): only the status changes; pc, registers, memory and output stay.
There is no handler and no return from it (R163, R164). -/
def State.takeFault (s : State) (f : Fault) : State := { s with status := .faulted f }

/-- How a step ends (R80): the writes of a completed execution all together, or the fault it raised. -/
def State.finish (s : State) (r : Except Fault State) : Host.Outcome State Fault Refusal :=
  match r with
  | .ok t => .next t
  | .error f => .next (s.takeFault f)

/-- The pc after an instruction of `len` bytes at `s.pc` (R86). If one of its bytes lies past address 255
the step has raised OutOfBounds for the first such address, which is always 256 (R81, R84): the same
fault here, where a meaning is asked for an instruction that does not fit (log entry 5). -/
def State.pcAfter (s : State) (len : Nat) : Except Fault Pc :=
  if h : s.pc.val + len < 257 then .ok ⟨s.pc.val + len, h⟩ else .error (.outOfBounds 256)

/-- `emit` (R10, R30): append one event. -/
def State.emit (s : State) (e : Event) : State := { s with out := s.out ++ [e] }

end Sys2Proof.Machine
end

