-- ==== Sys2Proof/Machine/Operands.lean ====
section
/-! DEFINITION. Register operands: the index check and the register accesses (R10, R22, R24). -/

namespace Sys2Proof.Machine

/-- `x[i]`. -/
def State.reg (s : State) (i : RegIx) : Byte := s.x[i]

/-- `x[i] <- v`. No register is hardwired (R22), and r7 is not special (R23). -/
def State.setReg (s : State) (i : RegIx) (v : Byte) : State := { s with x := s.x.set i v }

/-- A register operand: the full byte is compared with 8 (R24, R63, D21). -/
def regOperand (a : Byte) : Except Fault RegIx :=
  if h : a.toNat < 8 then .ok ⟨a.toNat, h⟩ else .error (.invalidRegister a)

end Sys2Proof.Machine
end

