-- ==== Sys2Proof/Machine/Alu.lean ====
section
/-! DEFINITION. The ALU and its instructions: ADD, SUB, MUL, DIV (43_alu.md). -/

namespace Sys2Proof.Machine

/-- The ALU's four operations; it takes no other (R122). -/
inductive AluOp where
  | add | sub | mul | div
  deriving DecidableEq, Repr

/-- Reduce an exact integer result modulo 256 (R121, ARITH_POLICY of R7). -/
def wrap (v : Int) : Byte := BitVec.ofInt 8 v

/-- `f_op(va, vb)` (R124 to R127): exact on unsigned integers, then reduced modulo 256.
DIV truncates, and raises DivisionByZero for a zero divisor. -/
def aluResult (op : AluOp) (va vb : Byte) : Except Fault Byte :=
  match op with
  | .add => .ok (wrap ((va.toNat : Int) + (vb.toNat : Int)))
  | .sub => .ok (wrap ((va.toNat : Int) - (vb.toNat : Int)))
  | .mul => .ok (wrap ((va.toNat : Int) * (vb.toNat : Int)))
  | .div => if vb = 0#8 then .error .divisionByZero else .ok (wrap ((va.toNat / vb.toNat : Nat) : Int))

/-- The ALU's template (R120): check A, check B, read both, compute, write register A. -/
def alu (op : AluOp) (a b : Byte) (s : State) : Host.Outcome State Fault Refusal :=
  s.finish do
    let pc' ← s.pcAfter 3
    let ra ← regOperand a
    let rb ← regOperand b
    let r ← aluResult op (s.reg ra) (s.reg rb)
    pure { s.setReg ra r with pc := pc' }

/-- ADD (R124). -/
def execAdd (a b : Byte) (s : State) : Host.Outcome State Fault Refusal := alu .add a b s

/-- SUB (R125). -/
def execSub (a b : Byte) (s : State) : Host.Outcome State Fault Refusal := alu .sub a b s

/-- MUL (R126). -/
def execMul (a b : Byte) (s : State) : Host.Outcome State Fault Refusal := alu .mul a b s

/-- DIV (R127). -/
def execDiv (a b : Byte) (s : State) : Host.Outcome State Fault Refusal := alu .div a b s

end Sys2Proof.Machine
end

