-- ==== Sys2Proof/Machine/Flags.lean ====
section
/-! DEFINITION. The core has no condition flags (R11, R28). Its one flag is the halted flag (R27). -/

namespace Sys2Proof.Machine

/-- The halted flag: `status = Halted` (R27). -/
def State.haltedFlag (s : State) : Bool := s.status == .halted

/-- Set the halted flag: Running to Halted (R26, R100). -/
def State.halt (s : State) : State := { s with status := .halted }

end Sys2Proof.Machine
end

