-- ==== Sys2Proof/Machine/Control.lean ====
section
/-! DEFINITION. Control instructions: HLT (41_control.md). -/

namespace Sys2Proof.Machine

/-- HLT (R100): halt, emit the notice, and advance the pc all the same. -/
def execHlt (s : State) : Host.Outcome State Fault Refusal :=
  s.finish do
    let pc' ← s.pcAfter 1
    pure { s.halt.emit .haltNotice with pc := pc' }

end Sys2Proof.Machine
end

