-- ==== Sys2Proof/Machine/DataMovement.lean ====
section
/-! DEFINITION. Data movement and output: LDI, PRN (42_data_movement.md). -/

namespace Sys2Proof.Machine

/-- LDI (R110): the immediate is loaded as it is. -/
def execLdi (a imm : Byte) (s : State) : Host.Outcome State Fault Refusal :=
  s.finish do
    let pc' ← s.pcAfter 3
    let r ← regOperand a
    pure { s.setReg r imm with pc := pc' }

/-- PRN (R112): emit Print(x[A]). -/
def execPrn (a : Byte) (s : State) : Host.Outcome State Fault Refusal :=
  s.finish do
    let pc' ← s.pcAfter 2
    let r ← regOperand a
    pure { s.emit (.print (s.reg r)) with pc := pc' }

end Sys2Proof.Machine
end

