-- ==== Sys2Proof/Machine/Stack.lean ====
section
/-! DEFINITION. Stack instructions: PUSH, POP (44_stack.md). SP is read from r7 each time (R141). -/

namespace Sys2Proof.Machine

/-- SP, an alias of r7 (R23, R140). -/
def State.sp (s : State) : Byte := s.reg Config.spIndex

/-- The new SP of a PUSH, which is also the address it stores to: an integer, -1..254 (R142). -/
def State.pushAddress (s : State) : Int := (s.sp.toNat : Int) - 1

/-- The new SP of a POP: an integer, 1..256 (R143). -/
def State.popSp (s : State) : Int := (s.sp.toNat : Int) + 1

/-- SP must stay within 0..255 (R144): the stack does not wrap. -/
def stackPointer (nsp : Int) : Except Fault Byte :=
  match checkAddress nsp with
  | .ok n => .ok (BitVec.ofNat 8 n)
  | .error f => .error f

/-- PUSH (R142): the decremented SP is in r7 before r[A] is read, so PUSH r7 stores the new SP. -/
def execPush (a : Byte) (s : State) : Host.Outcome State Fault Refusal :=
  s.finish do
    let pc' ← s.pcAfter 2
    let r ← regOperand a
    let nsp ← stackPointer s.pushAddress
    let m ← memWrite s.mem s.pushAddress (if r = Config.spIndex then nsp else s.reg r)
    pure { s.setReg Config.spIndex nsp with mem := m, pc := pc' }

/-- POP (R143): r7 is written last, so POP r7 discards the popped value. -/
def execPop (a : Byte) (s : State) : Host.Outcome State Fault Refusal :=
  s.finish do
    let pc' ← s.pcAfter 2
    let r ← regOperand a
    let v ← memRead s.mem (s.sp.toNat : Int)
    let nsp ← stackPointer s.popSp
    pure { (s.setReg r v).setReg Config.spIndex nsp with pc := pc' }

end Sys2Proof.Machine
end

