-- ==== Sys2Proof/Syntax.lean ====
section
/-! DEFINITION. The instruction set as data: the nine opcodes (R64), the formats (R62), the instructions. -/

namespace Sys2Proof

/-- The closed enumeration of the nine opcodes (R2, R64, R65). -/
inductive Opcode where
  | hlt | ldi | prn | add | sub | mul | div | push | pop
  deriving DecidableEq, Repr

/-- The three formats of R62: one, two or three bytes. -/
inductive Format where
  | F0 | F1 | F2
  deriving DecidableEq, Repr

/-- An instruction with its operand bytes, one constructor per row of the opcode table.
`a` and `b` are WHOLE operand bytes (R63): a register operand of 8 or more is an instruction that
raises InvalidRegister when it runs (R24), so it has a term here and `WellFormed` tells it apart. -/
inductive Instr where
  /-- R100. -/
  | hlt
  /-- R110: `a` the destination register, `imm` the immediate. -/
  | ldi (a imm : Byte)
  /-- R112: `a` the source register. -/
  | prn (a : Byte)
  /-- R124: `a` destination and first source, `b` second source. -/
  | add (a b : Byte)
  /-- R125: `a` destination and minuend, `b` subtrahend. -/
  | sub (a b : Byte)
  /-- R126: `a` destination and first factor, `b` second factor. -/
  | mul (a b : Byte)
  /-- R127: `a` destination and dividend, `b` divisor. -/
  | div (a b : Byte)
  /-- R142: `a` the register whose value is pushed. -/
  | push (a : Byte)
  /-- R143: `a` the destination register. -/
  | pop (a : Byte)
  deriving DecidableEq, Repr

end Sys2Proof
end

