-- ==== Sys2Proof/WellFormed.lean ====
section
/-! DEFINITION. Well-formed instructions: every register operand names a register (R24, R63). -/

namespace Sys2Proof

/-- The operand bytes an instruction uses as register indices, A before B (R63, R88 item 4).
LDI's B is an immediate and is not among them. -/
def Instr.regOperands : Instr → List Byte
  | .hlt => []
  | .ldi a _ => [a]
  | .prn a => [a]
  | .add a b => [a, b]
  | .sub a b => [a, b]
  | .mul a b => [a, b]
  | .div a b => [a, b]
  | .push a => [a]
  | .pop a => [a]

/-- Every register operand is in 0..7 (R24). -/
abbrev Instr.WellFormed (i : Instr) : Prop := ∀ a ∈ i.regOperands, a.toNat < 8

end Sys2Proof
end

