-- ==== Sys2Proof/Decode.lean ====
section
/-! DEFINITION. The decoder (R61, R64, R65, R83, R84), total on any bytes, and the encoder from the same table. -/

namespace Sys2Proof

/-- A row of the opcode map (R64): a byte matches it when its bits under `mask` are `pattern`. -/
structure OpcodeRow where
  mask : Byte
  pattern : Byte
  op : Opcode
  deriving DecidableEq, Repr

/-- The opcode map of R64, in the table's order. Every mask is 0xFF: all eight bits count (R65). -/
def opcodeTable : List OpcodeRow :=
  [⟨0xFF#8, 0b00000001#8, .hlt⟩,
   ⟨0xFF#8, 0b10000010#8, .ldi⟩,
   ⟨0xFF#8, 0b01000111#8, .prn⟩,
   ⟨0xFF#8, 0b10100000#8, .add⟩,
   ⟨0xFF#8, 0b10100001#8, .sub⟩,
   ⟨0xFF#8, 0b10100010#8, .mul⟩,
   ⟨0xFF#8, 0b10100011#8, .div⟩,
   ⟨0xFF#8, 0b01000101#8, .push⟩,
   ⟨0xFF#8, 0b01000110#8, .pop⟩]

/-- `Decode(IR)` of R83: the opcode whose constant equals the byte, or none. -/
def Opcode.ofByte (ir : Byte) : Option Opcode :=
  (opcodeTable.find? fun row => ir &&& row.mask == row.pattern).map OpcodeRow.op

/-- The opcode's byte (R64). -/
def Opcode.toByte : Opcode → Byte
  | .hlt => 0x01#8
  | .ldi => 0x82#8
  | .prn => 0x47#8
  | .add => 0xA0#8
  | .sub => 0xA1#8
  | .mul => 0xA2#8
  | .div => 0xA3#8
  | .push => 0x45#8
  | .pop => 0x46#8

/-- The opcode's format (R62). -/
def Opcode.format : Opcode → Format
  | .hlt => .F0
  | .prn => .F1
  | .push => .F1
  | .pop => .F1
  | .ldi => .F2
  | .add => .F2
  | .sub => .F2
  | .mul => .F2
  | .div => .F2

/-- The number of bytes of a format (R62). -/
def Format.length : Format → Nat
  | .F0 => 1
  | .F1 => 2
  | .F2 => 3

/-- `length = IR[7:6] + 1` (R61), a function of the opcode byte alone. -/
def insnLength (ir : Byte) : Nat := (ir.extractLsb' 6 2).toNat + 1

/-- The instruction of an opcode and its operand bytes; an operand the format has not is not looked at. -/
def Opcode.build : Opcode → Byte → Byte → Instr
  | .hlt, _, _ => .hlt
  | .ldi, a, b => .ldi a b
  | .prn, a, _ => .prn a
  | .add, a, b => .add a b
  | .sub, a, b => .sub a b
  | .mul, a, b => .mul a b
  | .div, a, b => .div a b
  | .push, a, _ => .push a
  | .pop, a, _ => .pop a

/-- Why a list of bytes holds no instruction. -/
inductive DecodeError where
  /-- The first byte is none of the nine opcodes (R67, R83). -/
  | unknownOpcode (ir : Byte)
  /-- The bytes end before the instruction does: the byte at `offset` is the first one missing (R84). -/
  | endOfBytes (offset : Nat)
  deriving DecidableEq, Repr

/-- The first instruction of a list of bytes, with the bytes after it. The opcode is recognised before
any operand byte is asked for (R83, R88), and only the bytes the length needs are (R84). -/
def decode : List Byte → Except DecodeError (Instr × List Byte)
  | [] => .error (.endOfBytes 0)
  | ir :: rest =>
    match Opcode.ofByte ir with
    | none => .error (.unknownOpcode ir)
    | some op =>
      match insnLength ir, rest with
      | 1, rest => .ok (op.build 0#8 0#8, rest)
      | 2, a :: rest => .ok (op.build a 0#8, rest)
      | 2, [] => .error (.endOfBytes 1)
      | 3, a :: b :: rest => .ok (op.build a b, rest)
      | 3, [_] => .error (.endOfBytes 2)
      | 3, [] => .error (.endOfBytes 1)
      | _, _ => .error (.unknownOpcode ir)   -- length 4: no opcode of the table has it (R61)

/-- The opcode of an instruction. -/
def Instr.opcode : Instr → Opcode
  | .hlt => .hlt
  | .ldi _ _ => .ldi
  | .prn _ => .prn
  | .add _ _ => .add
  | .sub _ _ => .sub
  | .mul _ _ => .mul
  | .div _ _ => .div
  | .push _ => .push
  | .pop _ => .pop

/-- The bytes of an instruction in ascending addresses: opcode, A, B (R44, R60, R62). -/
def encode (i : Instr) : List Byte :=
  match i with
  | .hlt => [i.opcode.toByte]
  | .ldi a imm => [i.opcode.toByte, a, imm]
  | .prn a => [i.opcode.toByte, a]
  | .add a b => [i.opcode.toByte, a, b]
  | .sub a b => [i.opcode.toByte, a, b]
  | .mul a b => [i.opcode.toByte, a, b]
  | .div a b => [i.opcode.toByte, a, b]
  | .push a => [i.opcode.toByte, a]
  | .pop a => [i.opcode.toByte, a]

/-- The three bytes of a table word of `nbits` bits: byte `k` is bits `8k+7..8k`, and every bit from
`nbits` on is 0. Three bytes is the longest instruction (R61). -/
def tableBytes (nbits w : Nat) : List Byte :=
  let v := w % 2 ^ nbits
  [BitVec.ofNat 8 v, BitVec.ofNat 8 (v / 256), BitVec.ofNat 8 (v / 65536)]

/-- The instruction the decoder reads from a table word laid out as the core stores it. -/
def decodeTableWord (nbits w : Nat) : Option Instr :=
  match decode (tableBytes nbits w) with
  | .ok (i, _) => some i
  | .error _ => none

end Sys2Proof
end

