-- ==== Sys2Proof/Machine/Fetch.lean ====
section
/-! DEFINITION. Fetch, decode and operand reads of one step (R80 items 1 to 3). -/

namespace Sys2Proof.Machine

/-- The read of an operand byte that the length asks for; a byte it does not is not read (R84). -/
def readOperand (m : Memory) (needed : Bool) (addr : Int) : Except Fault Byte :=
  if needed then memRead m addr else .ok 0#8

/-- The instruction at the pc, or the fault of R88 items 1 to 3: the opcode byte is read (R81, R82) and
recognised (R83), then exactly the operand bytes its length needs are read, A before B (R84). -/
def fetch (s : State) : Except Fault Instr := do
  let ir ← memRead s.mem (s.pc.val : Int)
  match Opcode.ofByte ir with
  | none => .error (.unknownOpcode ir)
  | some op =>
    let a ← readOperand s.mem (decide (2 ≤ insnLength ir)) ((s.pc.val : Int) + 1)
    let b ← readOperand s.mem (decide (3 ≤ insnLength ir)) ((s.pc.val : Int) + 2)
    .ok (op.build a b)

/-- The bytes of memory from an address on, at most `n` of them: none lies past address 255. -/
def Memory.bytesFrom (m : Memory) (a : Nat) : Nat → List Byte
  | 0 => []
  | n + 1 => if a < Config.memSize then Memory.get m a :: Memory.bytesFrom m (a + 1) n else []

/-- The bytes at the pc that an instruction can take up: at most three (R60). -/
def State.window (s : State) : List Byte := Memory.bytesFrom s.mem s.pc.val 3

end Sys2Proof.Machine
end

