-- ==== Sys2Proof/Machine/Step.lean ====
section
/-! DEFINITION. One step (R80), and the placing of one instruction where the next step fetches it. -/

namespace Sys2Proof.Machine

/-- One step. Running: fetch, decode, read operands, execute, or take the fault (R80). Halted and
Faulted: no step is enabled, and nothing changes (R96). -/
def step (s : State) : Host.Outcome State Fault Refusal :=
  match s.status with
  | .running =>
    match fetch s with
    | .ok i => exec i s
    | .error f => .next (s.takeFault f)
  | .halted => .next s
  | .faulted _ => .next s

/-- Store the three bytes of a table word at the pc (those that fit below address 256) and let the
machine run (log entry 8): the program counter fetches there next. -/
def State.withFetchWord (s : State) (nbits w : Nat) : State :=
  { s with
    mem := Memory.storeBytes s.mem s.pc.val ((tableBytes nbits w).take (Config.memSize - s.pc.val))
    status := .running }

end Sys2Proof.Machine
end

