-- ==== Sys2Proof/Machine/Assembler.lean ====
section
/-! DEFINITION. The canonical assembler syntax of R68 (D18): text to instructions to image bytes, and back.
It is no part of the machine; what R68 leaves open is fixed in log entry 9. Texts are lists of characters. -/

namespace Sys2Proof.Asm

/-- The tokens of a text: words, commas, and the separators of instructions. -/
inductive Token where
  | word (w : List Char)
  | comma
  | separator
  deriving DecidableEq, Repr

/-- The word gathered so far (its characters last first), if there is one. -/
def pending (acc : List Char) : List Token := if acc = [] then [] else [.word acc.reverse]

/-- Split a text into tokens. `;` and a line's end separate instructions; blanks separate words. -/
def lex : List Char → List Char → List Token
  | [], acc => pending acc
  | c :: cs, acc =>
    if c = ',' then pending acc ++ .comma :: lex cs []
    else if c = ';' ∨ c = '\n' then pending acc ++ .separator :: lex cs []
    else if c = ' ' ∨ c = '\t' then pending acc ++ lex cs []
    else lex cs (c :: acc)

/-- The tokens of each instruction, in order; nothing between two separators is no instruction. -/
def statements : List Token → List Token → List (List Token)
  | [], acc => if acc = [] then [] else [acc.reverse]
  | .separator :: ts, acc => (if acc = [] then [] else [acc.reverse]) ++ statements ts []
  | t :: ts, acc => statements ts (t :: acc)

/-- The value of a digit in a base of at most 16. -/
def digit? (base : Nat) (c : Char) : Option Nat :=
  let n := c.toNat
  let v := if 48 ≤ n ∧ n ≤ 57 then n - 48 else if 65 ≤ n ∧ n ≤ 70 then n - 55
    else if 97 ≤ n ∧ n ≤ 102 then n - 87 else 16
  if v < base then some v else none

/-- The value of a run of digits after the digits already read. -/
def digits? (base : Nat) : Nat → List Char → Option Nat
  | acc, [] => some acc
  | acc, c :: cs =>
    match digit? base c with
    | some d => digits? base (acc * base + d) cs
    | none => none

/-- A number: at least one digit. -/
def number? (base : Nat) (cs : List Char) : Option Nat := if cs = [] then none else digits? base 0 cs

/-- An immediate: a decimal, 0x or 0b literal in 0..255 (R68). -/
def immediate? (cs : List Char) : Option Byte :=
  let v := match cs with
    | '0' :: 'x' :: ds => number? 16 ds
    | '0' :: 'b' :: ds => number? 2 ds
    | ds => number? 10 ds
  match v with
  | some n => if n < 256 then some (BitVec.ofNat 8 n) else none
  | none => none

/-- A register name: r0 to r7, and sp for r7 (R68). -/
def register? (cs : List Char) : Option Byte :=
  match cs with
  | ['s', 'p'] => some 7#8
  | ['r', d] =>
    match digit? 8 d with
    | some n => some (BitVec.ofNat 8 n)
    | none => none
  | _ => none

/-- The mnemonics of R68. -/
def mnemonic? (cs : List Char) : Option Opcode :=
  match cs with
  | ['H', 'L', 'T'] => some .hlt
  | ['L', 'D', 'I'] => some .ldi
  | ['P', 'R', 'N'] => some .prn
  | ['A', 'D', 'D'] => some .add
  | ['S', 'U', 'B'] => some .sub
  | ['M', 'U', 'L'] => some .mul
  | ['D', 'I', 'V'] => some .div
  | ['P', 'U', 'S', 'H'] => some .push
  | ['P', 'O', 'P'] => some .pop
  | _ => none

/-- The instruction of a mnemonic and two operand words; `comma` says whether a comma stood between
them: only between two register operands is it optional (R68). -/
def twoOperands? (op : Opcode) (comma : Bool) (wa wb : List Char) : Option Instr :=
  let b := if op = .ldi then (if comma then immediate? wb else none) else register? wb
  match op.format, register? wa, b with
  | .F2, some a, some b => some (op.build a b)
  | _, _, _ => none

/-- One instruction's tokens. -/
def parse? : List Token → Option Instr
  | [.word m] =>
    match mnemonic? m with
    | some .hlt => some .hlt
    | _ => none
  | [.word m, .word wa] =>
    match mnemonic? m, register? wa with
    | some op, some a => if op.format = .F1 then some (op.build a 0#8) else none
    | _, _ => none
  | [.word m, .word wa, .comma, .word wb] =>
    match mnemonic? m with
    | some op => twoOperands? op true wa wb
    | none => none
  | [.word m, .word wa, .word wb] =>
    match mnemonic? m with
    | some op => twoOperands? op false wa wb
    | none => none
  | _ => none

/-- Every statement parsed, or none if one of them is no instruction. -/
def parseAll? : List (List Token) → Option (List Instr)
  | [] => some []
  | ts :: rest =>
    match parse? ts, parseAll? rest with
    | some i, some is => some (i :: is)
    | _, _ => none

/-- Assemble a text. -/
def assemble? (text : List Char) : Option (List Instr) := parseAll? (statements (lex text []) [])

/-- The image bytes of a list of instructions (R183 loads them from address 0). -/
def image (is : List Instr) : List Byte := is.flatMap encode

/-- The character of a decimal digit. -/
def digitChar (n : Nat) : Char := Char.ofNat (48 + n)

/-- A byte in decimal. -/
def decimal (v : Byte) : List Char :=
  let n := v.toNat
  if n < 10 then [digitChar n]
  else if n < 100 then [digitChar (n / 10), digitChar (n % 10)]
  else [digitChar (n / 100), digitChar (n / 10 % 10), digitChar (n % 10)]

/-- The name of a register operand; a byte of 8 or more has none. -/
def regName? (a : Byte) : Option (List Char) :=
  if a.toNat < 8 then some ['r', digitChar a.toNat] else none

/-- A mnemonic's characters. -/
def mnemonic : Opcode → List Char
  | .hlt => ['H', 'L', 'T']
  | .ldi => ['L', 'D', 'I']
  | .prn => ['P', 'R', 'N']
  | .add => ['A', 'D', 'D']
  | .sub => ['S', 'U', 'B']
  | .mul => ['M', 'U', 'L']
  | .div => ['D', 'I', 'V']
  | .push => ['P', 'U', 'S', 'H']
  | .pop => ['P', 'O', 'P']

/-- The text of a mnemonic with its operands, separated by a comma (R68). -/
def textOf? (op : Opcode) : List (Option (List Char)) → Option (List Char)
  | [] => some (mnemonic op)
  | [some a] => some (mnemonic op ++ ' ' :: a)
  | [some a, some b] => some (mnemonic op ++ ' ' :: a ++ ',' :: ' ' :: b)
  | _ => none

/-- The canonical text of an instruction (R68); an instruction that is not well-formed has none. -/
def disassemble? (i : Instr) : Option (List Char) :=
  match i with
  | .hlt => textOf? i.opcode []
  | .ldi a imm => textOf? i.opcode [regName? a, some (decimal imm)]
  | .prn a => textOf? i.opcode [regName? a]
  | .add a b => textOf? i.opcode [regName? a, regName? b]
  | .sub a b => textOf? i.opcode [regName? a, regName? b]
  | .mul a b => textOf? i.opcode [regName? a, regName? b]
  | .div a b => textOf? i.opcode [regName? a, regName? b]
  | .push a => textOf? i.opcode [regName? a]
  | .pop a => textOf? i.opcode [regName? a]

end Sys2Proof.Asm
end

