-- ==== Sys2Proof/Machine/Interface.lean ====
section
/-! DEFINITION. The block interface of R33: reset, load, step, run, status, out and the debug port. -/

namespace Sys2Proof.Machine

/-- The numeric code of a fault (R160, D8). -/
def Fault.code : Fault → Nat
  | .outOfBounds _ => 1
  | .invalidRegister _ => 2
  | .divisionByZero => 3
  | .unknownOpcode _ => 4
  | .programTooLarge _ => 5

/-- `load(image)` (R183): an image of at most 256 bytes is installed at address 0, the cells after it
keep their values; a longer one sets Faulted(ProgramTooLarge, n) and leaves memory. -/
def State.load (image : List Byte) (s : State) : State :=
  if 256 < image.length then s.takeFault (.programTooLarge image.length)
  else { s with mem := Memory.storeBytes s.mem 0 image }

/-- Steps while Running, at most `fuel` of them (R95). -/
def runFor : Nat → State → Host.Outcome State Fault Refusal
  | 0, s => .next s
  | fuel + 1, s =>
    match s.status with
    | .running =>
      match step s with
      | .next t => runFor fuel t
      | .fault f => .fault f
      | .refused r => .refused r
    | .halted => .next s
    | .faulted _ => .next s

/-- `run` (R95): steps until the status is not Running. 257 steps are always enough (R97, R98). -/
def run (s : State) : Host.Outcome State Fault Refusal := runFor 257 s

/-- The machine with the interface's own memory: whether the one `load` may still come (R184, log entry 6). -/
structure Session where
  state : State
  loadAllowed : Bool
  deriving DecidableEq, Repr

/-- What the host can do to the core (R33). `reset` carries the draw of `INIT_REGS` (R180). -/
inductive Command where
  | reset (init : InitRegs)
  | load (image : List Byte)
  | step
  | run
  deriving DecidableEq, Repr

/-- A step or run inside a session: after it, no load may come. -/
def Session.after (o : Host.Outcome State Fault Refusal) : Host.Outcome Session Fault Refusal :=
  match o with
  | .next t => .next ⟨t, false⟩
  | .fault f => .fault f
  | .refused r => .refused r

/-- One command of the host. `reset` may come in any status (R180, D25); `load` at most once, between
reset and the first step, and is refused at any other time (R184). -/
def Session.apply (c : Command) (q : Session) : Host.Outcome Session Fault Refusal :=
  match c with
  | .reset init => .next ⟨State.resetWith init, true⟩
  | .load image => if q.loadAllowed then .next ⟨q.state.load image, false⟩ else .refused .loadOutsideInterface
  | .step => Session.after (Sys2Proof.Machine.step q.state)
  | .run => Session.after (Sys2Proof.Machine.run q.state)

/-- Several commands in order, stopping at the first that is refused. -/
def Session.applyAll : List Command → Session → Host.Outcome Session Fault Refusal
  | [], q => .next q
  | c :: cs, q =>
    match q.apply c with
    | .next q' => Session.applyAll cs q'
    | .fault f => .fault f
    | .refused r => .refused r

/-- The debug port's read of the pc (R172). -/
def State.debugPc (s : State) : Nat := s.pc.val

/-- The debug port's read of the status, which is also the status output (R33, R172). -/
def State.debugStatus (s : State) : Status := s.status

/-- The debug port's read of a register (R172). -/
def State.debugReg (s : State) (i : RegIx) : Byte := s.reg i

/-- The debug port's read of a memory cell: none for an address of 256 or more (R172). -/
def State.debugMem (s : State) (a : Nat) : Option Byte :=
  if a < 256 then some (Memory.get s.mem a) else none

/-- The trace observer's "next three memory cells" (R172, D17): at the pc and the two addresses after it. -/
def State.debugNextCells (s : State) : List (Option Byte) :=
  [s.debugMem s.debugPc, s.debugMem (s.debugPc + 1), s.debugMem (s.debugPc + 2)]

end Sys2Proof.Machine
end

