-- ==== Sys2Proof/Safety.lean ====
section
/-! DEFINITION. What a good state, a stopped state and a safe run are, in the terms the statements use. -/

namespace Sys2Proof.Machine

/-- The info a fault record may hold (R160). An OutOfBounds of 257 never arises, because the lower
operand address is checked first (R84). -/
abbrev Fault.InfoInRange (f : Fault) : Prop :=
  match f with
  | .outOfBounds addr => addr = -1 ∨ addr = 256
  | .invalidRegister i => 8 ≤ i.toNat
  | .divisionByZero => True
  | .unknownOpcode ir => Opcode.ofByte ir = none
  | .programTooLarge n => 256 < n

/-- The invariant of the machine: memory is in canonical form (addresses in 0..255), a fault record holds
what R160 lets it hold, and HaltNotice has been emitted exactly once in Halted, as the last event, and
never otherwise (R26, R27, R30, R100). -/
structure State.Inv (s : State) : Prop where
  memory : Memory.wf s.mem
  faultInfo : ∀ f, s.status = .faulted f → f.InfoInRange
  haltNotices : s.out.count .haltNotice = if s.status = .halted then 1 else 0
  haltNoticeLast : s.status = .halted → s.out.getLast? = some .haltNotice

/-- The invariant of a session: its state's, and while a load may still come nothing has run (R184). -/
structure Session.Inv (q : Session) : Prop where
  state : q.state.Inv
  loadFirst : q.loadAllowed = true → q.state.status = .running

/-- Halted or Faulted: the terminal states (R26, R174). -/
abbrev State.Stopped (s : State) : Prop := s.status ≠ .running

/-- The status is not Faulted. -/
abbrev State.NotFaulted (s : State) : Prop := ∀ f, s.status ≠ .faulted f

/-- The opcode byte at an address. -/
def State.opcodeAt (s : State) (a : Nat) : Byte := Memory.get s.mem a

/-- A run of `k` steps is safe when it answers a state that is not Faulted. -/
def SafeFor (k : Nat) (s : State) : Prop := ∃ t, runFor k s = .next t ∧ t.NotFaulted

/-- The register operands whose value an instruction reads, SP among them for PUSH and POP (R31). -/
def regsRead : Instr → List Byte
  | .hlt => []
  | .ldi _ _ => []
  | .prn a => [a]
  | .add a b => [a, b]
  | .sub a b => [a, b]
  | .mul a b => [a, b]
  | .div a b => [a, b]
  | .push a => [a, 7#8]
  | .pop _ => [7#8]

/-- The registers an instruction writes (R31). -/
def regsWritten : Instr → List Byte
  | .hlt => []
  | .ldi a _ => [a]
  | .prn _ => []
  | .add a _ => [a]
  | .sub a _ => [a]
  | .mul a _ => [a]
  | .div a _ => [a]
  | .push _ => [7#8]
  | .pop a => [a, 7#8]

/-- The instructions of R145's sequences: PUSH, POP, and ALU instructions that do not write r7. -/
abbrev StackOrAlu (i : Instr) : Prop :=
  match i with
  | .push _ => True
  | .pop _ => True
  | .add a _ => a.toNat ≠ 7
  | .sub a _ => a.toNat ≠ 7
  | .mul a _ => a.toNat ≠ 7
  | .div a _ => a.toNat ≠ 7
  | .hlt => False
  | .ldi _ _ => False
  | .prn _ => False

/-- Whether an instruction is a PUSH. -/
def isPush (i : Instr) : Bool := i.opcode == .push

/-- Whether an instruction is a POP. -/
def isPop (i : Instr) : Bool := i.opcode == .pop

/-- Whether an instruction goes through the ALU (R122). -/
def isAlu (op : Opcode) : Bool := op == .add || op == .sub || op == .mul || op == .div

/-- Instructions executed one after the other, each at the state the one before it left. -/
def execSeq : List Instr → State → Host.Outcome State Fault Refusal
  | [], s => .next s
  | i :: is, s =>
    match exec i s with
    | .next t =>
      match t.status with
      | .faulted _ => .next t
      | .running => execSeq is t
      | .halted => .next t
    | .fault f => .fault f
    | .refused r => .refused r

end Sys2Proof.Machine
end

