-- ==== Sys2Proof/Certificates/Slice0/Obligations.lean ====
section
/-! DEFINITION. The statements for the provers. Reset is stated for every draw of INIT_REGS
(`State.resetWith`), so none rests on the draw of log entry 1. -/

open Sys2Proof Sys2Proof.Machine

/-! ## Reset, load and the host's interface -/

/-- R180, the reset table, for every draw of `INIT_REGS` (the spec's decision D9), with the output empty (its
decision D23); and the `reset` command gives that state in any status (its decision D25). That the command
sets the session's bit `loadAllowed` is the model's own choice, log entry 6. -/
def Obligations.ResetEstablishesTheSpecState : Prop :=
  ∀ init : InitRegs,
    (∀ a : Nat, a < 256 → memRead (State.resetWith init).mem (a : Int) = .ok 0x00#8) ∧
    (State.resetWith init).reg 7 = 0xF4#8 ∧
    (∀ k : Fin 7, (State.resetWith init).reg k.castSucc = init[k]) ∧
    (State.resetWith init).pc = 0 ∧
    (State.resetWith init).status = .running ∧
    (State.resetWith init).haltedFlag = false ∧
    (State.resetWith init).out = [] ∧
    ∀ q : Session, q.apply (.reset init) = .next ⟨State.resetWith init, true⟩

/-- R183: `load` installs up to 256 bytes at address 0 and leaves the cells after them and the rest of the
state; a longer image only sets the status, after which no step is enabled (the spec's decisions D16 and
D20); an image of exactly 256 bytes is accepted; after an empty one the first step raises
UnknownOpcode(0x00). -/
def Obligations.LoadInstallsTheImageOrRejectsIt : Prop :=
  ∀ (image : List Byte) (s : State),
    (image.length ≤ 256 →
      (∀ (k : Nat) (hk : k < image.length), Memory.get (s.load image).mem k = image[k]) ∧
      (∀ c : Nat, image.length ≤ c → Memory.get (s.load image).mem c = Memory.get s.mem c) ∧
      (∀ r : RegIx, (s.load image).reg r = s.reg r) ∧ (s.load image).pc = s.pc ∧
      (s.load image).status = s.status ∧ (s.load image).out = s.out) ∧
    (256 < image.length →
      s.load image = { s with status := .faulted (.programTooLarge image.length) } ∧
      step (s.load image) = .next (s.load image)) ∧
    (∀ init : InitRegs,
      step ((State.resetWith init).load []) =
        .next ((State.resetWith init).takeFault (.unknownOpcode 0x00#8)))

/-- R184 (the spec's decision D16; the session's bit `loadAllowed` is the model's own, log entry 6): the load is
accepted after reset; once a load, step or run has been applied, no load is, however many commands other
than reset follow; running without a load faults at once with UnknownOpcode(0x00). -/
def Obligations.LoadComesAtMostOnceBeforeTheFirstStep : Prop :=
  (∀ (init : InitRegs) (image : List Byte),
    Session.apply (.load image) ⟨State.resetWith init, true⟩ =
      .next ⟨(State.resetWith init).load image, false⟩) ∧
  (∀ (c : Command) (cs : List Command) (q q' : Session) (image : List Byte),
    (∀ d ∈ c :: cs, ∀ init, d ≠ .reset init) →
    Session.applyAll (c :: cs) q = .next q' →
    q'.apply (.load image) = .refused .loadOutsideInterface) ∧
  (∀ init : InitRegs,
    run (State.resetWith init) = .next ((State.resetWith init).takeFault (.unknownOpcode 0x00#8)))

/-- R172 (the spec's decision D17): what the debug port returns, and none for an address of 256 or more. -/
def Obligations.DebugPortReadsTheState : Prop :=
  ∀ s : State,
    s.debugPc = s.pc.val ∧ s.debugStatus = s.status ∧
    (∀ i : RegIx, s.debugReg i = s.x[i]) ∧
    (∀ a : Nat, a < 256 → ∃ v, memRead s.mem (a : Int) = .ok v ∧ s.debugMem a = some v) ∧
    (∀ a : Nat, 256 ≤ a → s.debugMem a = none) ∧
    (s.debugNextCells = [s.debugMem s.pc.val, s.debugMem (s.pc.val + 1), s.debugMem (s.pc.val + 2)])

/-! ## Decoding and encoding -/

/-- A few words written from the encodings of R64 (95_test_vectors.md V1, V2, S1, S6, A1, A5, A14). -/
def Obligations.SampleWordsDecode : Prop :=
  decode [0x01#8] = .ok (.hlt, []) ∧
  decode [0x82#8, 0x00#8, 0x08#8] = .ok (.ldi 0#8 8#8, []) ∧
  decode [0x47#8, 0x00#8, 0x01#8] = .ok (.prn 0#8, [0x01#8]) ∧
  decode [0xA0#8, 0x02#8, 0x03#8] = .ok (.add 2#8 3#8, []) ∧
  decode [0xA1#8, 0x04#8, 0x02#8] = .ok (.sub 4#8 2#8, []) ∧
  decode [0xA2#8, 0x00#8, 0x01#8] = .ok (.mul 0#8 1#8, []) ∧
  decode [0xA3#8, 0x02#8, 0x04#8] = .ok (.div 2#8 4#8, []) ∧
  decode [0x45#8, 0x03#8] = .ok (.push 3#8, []) ∧
  decode [0x46#8, 0x03#8] = .ok (.pop 3#8, []) ∧
  decode [0x41#8] = .error (.unknownOpcode 0x41#8)

/-- Decoding what was encoded gives the instruction back and leaves the bytes after it, for every
instruction at every value of its operand bytes (the ill-formed ones too). -/
def Obligations.DecodeInvertsEncode : Prop :=
  ∀ (i : Instr) (rest : List Byte), decode (encode i ++ rest) = .ok (i, rest)

/-- Whatever bytes decode, they are the encoding of what they decode to, followed by the rest: every
word has one meaning, and no other byte pattern shares it (R65, R67). -/
def Obligations.EncodeInvertsDecode : Prop :=
  ∀ (bs rest : List Byte) (i : Instr), decode bs = .ok (i, rest) → bs = encode i ++ rest

/-- R67: exactly the nine bytes of R64 are opcodes, 247 bytes are illegal, 0x00 and 0xC0 to 0xFF among
them, and executing an illegal one raises UnknownOpcode(IR). -/
def Obligations.EveryOtherOpcodeByteIsIllegal : Prop :=
  (∀ ir : Byte, Opcode.ofByte ir = none ↔
    ir ∉ [0x01#8, 0x82#8, 0x47#8, 0xA0#8, 0xA1#8, 0xA2#8, 0xA3#8, 0x45#8, 0x46#8]) ∧
  ((List.range 256).countP fun n => Opcode.ofByte (BitVec.ofNat 8 n) = none) = 247 ∧
  Opcode.ofByte 0x00#8 = none ∧
  (∀ ir : Byte, 0xC0 ≤ ir.toNat → Opcode.ofByte ir = none) ∧
  (∀ s : State, s.status = .running → s.pc.val < 256 → Opcode.ofByte (s.opcodeAt s.pc.val) = none →
    step s = .next (s.takeFault (.unknownOpcode (s.opcodeAt s.pc.val))))

/-- R61, and R66, which the spec derives from R61 and R64: the length is the top two bits of the opcode byte
plus one, no opcode has the length 4, and every encoding is as long as its opcode byte says, which is one
plus the number of its operands (the formats of R62). -/
def Obligations.LengthIsTheTopTwoBitsPlusOne : Prop :=
  (∀ ir : Byte, insnLength ir = ir.toNat / 64 + 1) ∧
  (∀ ir : Byte, ir.toNat / 64 = 3 → Opcode.ofByte ir = none) ∧
  (∀ i : Instr, (encode i).length = insnLength i.opcode.toByte ∧
    (encode i).head? = some i.opcode.toByte) ∧
  (∀ op : Opcode, insnLength op.toByte =
    match op with
    | .hlt => 1
    | .prn => 2
    | .push => 2
    | .pop => 2
    | .ldi => 3
    | .add => 3
    | .sub => 3
    | .mul => 3
    | .div => 3)

/-- The canonical text of every well-formed instruction assembles to it (R68; blanks as in log entry 9). -/
def Obligations.CanonicalTextAssemblesBack : Prop :=
  ∀ i : Instr, i.WellFormed → ∃ text, Asm.disassemble? i = some text ∧ Asm.assemble? text = some [i]

/-! ## One step -/

/-- When the bytes at the pc decode to an instruction, a running machine's step is `exec` of it at that
state: `exec` does the whole of the step, the pc's advance included. -/
def Obligations.StepRunsDecodedInstruction : Prop :=
  ∀ (s : State) (i : Instr) (rest : List Byte),
    s.status = .running → decode s.window = .ok (i, rest) → step s = exec i s

/-- When the encoding of an instruction stands at the pc, below address 256, a running machine's step is
`exec` of that instruction at that state. -/
def Obligations.StepRunsEncodedInstruction : Prop :=
  ∀ (s : State) (i : Instr),
    s.status = .running → s.pc.val + (encode i).length ≤ 256 →
    (∀ (k : Nat) (hk : k < (encode i).length), Memory.get s.mem (s.pc.val + k) = (encode i)[k]) →
    step s = exec i s

/-- A table word placed by `withFetchWord` is the instruction the next step runs (log entry 8). -/
def Obligations.PlacedWordIsWhatTheNextStepRuns : Prop :=
  ∀ (s : State) (nbits w : Nat) (i : Instr),
    s.pc.val + 3 ≤ 256 → decodeTableWord nbits w = some i →
    step (s.withFetchWord nbits w) = exec i (s.withFetchWord nbits w)

/-- Every instruction and every step answers a next state: the spec describes the effect of every one,
faults among them, and the model stops on none (that a fault is a next state is log entry 3). -/
def Obligations.EveryStepAnswersANextState : Prop :=
  (∀ (i : Instr) (s : State), ∃ t, exec i s = .next t) ∧ (∀ s : State, ∃ t, step s = .next t)

/-- R96 (the spec's decision D20): in Halted and Faulted a step changes nothing and emits nothing, and run
returns at once (that `run` is a loop bounded by 257 is log entry 11). -/
def Obligations.StoppedMachineStaysAsItIs : Prop :=
  ∀ s : State, (s.status = .halted ∨ ∃ f, s.status = .faulted f) →
    step s = .next s ∧ run s = .next s ∧ ∀ k, runFor k s = .next s

/-- R86: a step that completes without a fault adds the instruction's length to the pc, HLT's too, and
the result is at most 256; a faulting step leaves the pc. -/
def Obligations.CompletedStepAdvancesThePc : Prop :=
  ∀ s t : State, s.status = .running → step s = .next t →
    (t.NotFaulted → t.pc.val = s.pc.val + insnLength (s.opcodeAt s.pc.val) ∧ t.pc.val ≤ 256) ∧
    (∀ f, t.status = .faulted f → t.pc = s.pc)

/-- R88 (the spec's decision D7): the order of precedence of the faults of one step, item by item, and that a
step with none of the causes raises none. A and B are the bytes at pc+1 and pc+2. -/
def Obligations.FaultsOfAStepHaveTheirPriority : Prop :=
  ∀ s : State, s.status = .running →
    let ir := s.opcodeAt s.pc.val
    let A := s.opcodeAt (s.pc.val + 1)
    let B := s.opcodeAt (s.pc.val + 2)
    -- item 1
    (s.pc.val = 256 → step s = .next (s.takeFault (.outOfBounds (s.pc.val : Int)))) ∧
    -- item 2
    (s.pc.val < 256 → Opcode.ofByte ir = none → step s = .next (s.takeFault (.unknownOpcode ir))) ∧
    (∀ op, s.pc.val < 256 → Opcode.ofByte ir = some op →
      -- item 3
      (2 ≤ insnLength ir → 256 ≤ s.pc.val + 1 →
        step s = .next (s.takeFault (.outOfBounds ((s.pc.val : Int) + 1)))) ∧
      (3 ≤ insnLength ir → s.pc.val + 1 < 256 → 256 ≤ s.pc.val + 2 →
        step s = .next (s.takeFault (.outOfBounds ((s.pc.val : Int) + 2)))) ∧
      (s.pc.val + insnLength ir ≤ 256 →
        -- item 4
        (op ≠ .hlt → 8 ≤ A.toNat → step s = .next (s.takeFault (.invalidRegister A))) ∧
        (isAlu op = true → A.toNat < 8 → 8 ≤ B.toNat →
          step s = .next (s.takeFault (.invalidRegister B))) ∧
        ((op.build A B).WellFormed →
          -- item 5
          (op = .div → (∀ r : RegIx, r.val = B.toNat → s.reg r = 0#8) →
            step s = .next (s.takeFault .divisionByZero)) ∧
          (op = .push → s.sp = 0#8 → step s = .next (s.takeFault (.outOfBounds (-1)))) ∧
          (op = .pop → s.sp = 255#8 → step s = .next (s.takeFault (.outOfBounds 256))) ∧
          -- no cause, no fault
          ((op = .div → ∀ r : RegIx, r.val = B.toNat → s.reg r ≠ 0#8) →
            (op = .push → s.sp ≠ 0#8) → (op = .pop → s.sp ≠ 255#8) →
            ∃ t, step s = .next t ∧ t.NotFaulted))))

/-- R162 (the spec's decision D6): a step that raises a fault writes no register and no memory cell, leaves
the pc, emits nothing, and changes only the status; and the fault is permanent. -/
def Obligations.FaultsArePreciseAndPermanent : Prop :=
  ∀ (s t : State) (f : Fault), s.status = .running → step s = .next t → t.status = .faulted f →
    (∀ r : RegIx, t.reg r = s.reg r) ∧ (∀ c : Nat, Memory.get t.mem c = Memory.get s.mem c) ∧
    t.pc = s.pc ∧ t.out = s.out ∧ t = { s with status := .faulted f } ∧
    step t = .next t ∧ ∀ k, runFor k t = .next t

/-- Which step raises which fault, with which info (R160's cause, info and raiser columns), and the codes (the
spec's decision D8). R160 also lists the info 257 for an operand read; that only 256 is reported there is
log entry 12, deduced from R84, which checks the lower address first. -/
def Obligations.FaultsHaveTheirCauses : Prop :=
  (∀ s t : State, s.status = .running → step s = .next t →
    (∀ addr, t.status = .faulted (.outOfBounds addr) →
      (addr = 256 ∧ s.pc.val = 256) ∨
      (addr = 256 ∧ 256 < s.pc.val + insnLength (s.opcodeAt s.pc.val)) ∨
      (addr = -1 ∧ s.opcodeAt s.pc.val = 0x45#8 ∧ s.sp = 0#8) ∨
      (addr = 256 ∧ s.opcodeAt s.pc.val = 0x46#8 ∧ s.sp = 255#8)) ∧
    (∀ a, t.status = .faulted (.invalidRegister a) →
      8 ≤ a.toNat ∧ s.opcodeAt s.pc.val ≠ 0x01#8 ∧
      (a = s.opcodeAt (s.pc.val + 1) ∨ a = s.opcodeAt (s.pc.val + 2))) ∧
    (t.status = .faulted .divisionByZero → s.opcodeAt s.pc.val = 0xA3#8 ∧
      ∃ r : RegIx, r.val = (s.opcodeAt (s.pc.val + 2)).toNat ∧ s.reg r = 0#8) ∧
    (∀ ir, t.status = .faulted (.unknownOpcode ir) →
      ir = s.opcodeAt s.pc.val ∧ Opcode.ofByte ir = none) ∧
    (∀ n, t.status ≠ .faulted (.programTooLarge n))) ∧
  (∀ (addr : Int) (a ir : Byte) (n : Nat),
    (Fault.outOfBounds addr).code = 1 ∧ (Fault.invalidRegister a).code = 2 ∧
    Fault.divisionByZero.code = 3 ∧ (Fault.unknownOpcode ir).code = 4 ∧
    (Fault.programTooLarge n).code = 5)

/-- The transitions of the halt state machine (R26, R27): a running machine's step leads to Halted exactly
when the opcode at the pc is HLT's, and otherwise stays Running or becomes Faulted by one of the faults of
a step. The range of the fault's info is R160's, with OutOfBounds of -1 or 256 only: log entry 12, deduced
from R84. -/
def Obligations.OnlyHltHalts : Prop :=
  ∀ s t : State, s.status = .running → step s = .next t →
    (t.status = .halted ↔ s.pc.val < 256 ∧ s.opcodeAt s.pc.val = 0x01#8) ∧
    (t.status ≠ .halted → t.status = .running ∨
      ∃ f, t.status = .faulted f ∧ f.InfoInRange ∧ ∀ n, f ≠ .programTooLarge n)

/-- Only PUSH writes memory (R31, R41): a step that changes what an address reads as is a PUSH's, and the
address is the decremented stack pointer. -/
def Obligations.OnlyPushWritesMemory : Prop :=
  ∀ (s t : State) (c : Nat), s.status = .running → step s = .next t →
    Memory.get t.mem c ≠ Memory.get s.mem c →
    s.opcodeAt s.pc.val = 0x45#8 ∧ (c : Int) = (s.sp.toNat : Int) - 1

/-- The output of one step (R30, R80): PRN that completes appends Print of its register, HLT appends
HaltNotice, and every other step emits nothing. -/
def Obligations.StepEmitsAtMostItsEvent : Prop :=
  ∀ s t : State, s.status = .running → step s = .next t →
    (t.NotFaulted → s.opcodeAt s.pc.val = 0x47#8 →
      ∃ r : RegIx, r.val = (s.opcodeAt (s.pc.val + 1)).toNat ∧ t.out = s.out ++ [.print (s.reg r)]) ∧
    (t.NotFaulted → s.opcodeAt s.pc.val = 0x01#8 → t.out = s.out ++ [.haltNotice]) ∧
    (s.opcodeAt s.pc.val ≠ 0x47#8 → s.opcodeAt s.pc.val ≠ 0x01#8 → t.out = s.out) ∧
    (∀ f, t.status = .faulted f → t.out = s.out)

/-- A PUSH's store is what the next fetch and operand reads see (R50, R82; the spec's decision D22), and the
operand it executes is the one read before the store, even when it overwrites it. `seen c` is said from the
state BEFORE the PUSH alone: its bytes, with the pushed value at x[7]-1. After the step every cell reads as
`seen`, and the next fetch and the next step take their opcode byte, A and B from `seen` at the new pc. -/
def Obligations.PushStoreIsSeenByTheNextFetch : Prop :=
  ∀ (s t : State) (r : RegIx), s.status = .running → s.opcodeAt s.pc.val = 0x45#8 →
    step s = .next t → t.NotFaulted → r.val = (s.opcodeAt (s.pc.val + 1)).toNat →
    let seen : Nat → Byte := fun c =>
      if (c : Int) = (s.sp.toNat : Int) - 1 then (if r = 7 then s.sp - 1#8 else s.reg r)
      else s.opcodeAt c
    (∀ c : Nat, t.opcodeAt c = seen c) ∧
    (t.pc.val < 256 → Opcode.ofByte (seen t.pc.val) = none →
      fetch t = .error (.unknownOpcode (seen t.pc.val)) ∧
      step t = .next (t.takeFault (.unknownOpcode (seen t.pc.val)))) ∧
    (∀ op : Opcode, t.pc.val < 256 → Opcode.ofByte (seen t.pc.val) = some op →
      (t.pc.val + op.format.length ≤ 256 →
        fetch t = .ok (op.build (seen (t.pc.val + 1)) (seen (t.pc.val + 2))) ∧
        step t = exec (op.build (seen (t.pc.val + 1)) (seen (t.pc.val + 2))) t) ∧
      (256 < t.pc.val + op.format.length →
        fetch t = .error (.outOfBounds 256) ∧ step t = .next (t.takeFault (.outOfBounds 256)))) ∧
    (t.pc.val = 256 →
      fetch t = .error (.outOfBounds 256) ∧ step t = .next (t.takeFault (.outOfBounds 256)))

/-! ## The instructions: the whole rule of each, and that it completes -/

/-- R100: HLT's encoding; it halts, emits the notice and advances the pc, at address 255 too; nothing else
changes. -/
def Obligations.HltHaltsAndAdvances : Prop :=
  encode .hlt = [0x01#8] ∧ Opcode.ofByte 0x41#8 = none ∧ Opcode.ofByte 0xC1#8 = none ∧
  ∀ s : State, s.pc.val + 1 ≤ 256 →
    ∃ t, exec .hlt s = .next t ∧ t.status = .halted ∧ t.haltedFlag = true ∧
      t.out = s.out ++ [.haltNotice] ∧ t.pc.val = s.pc.val + 1 ∧
      (∀ r : RegIx, t.reg r = s.reg r) ∧ t.mem = s.mem ∧
      step t = .next t

/-- R110: LDI's encoding, its effect, and its faults. -/
def Obligations.LdiLoadsTheImmediate : Prop :=
  ∀ (a imm : Byte) (s : State),
    encode (.ldi a imm) = [0x82#8, a, imm] ∧
    (∀ ha : a.toNat < 8, s.pc.val + 3 ≤ 256 →
      ∃ t, exec (.ldi a imm) s = .next t ∧ t.reg ⟨a.toNat, ha⟩ = imm ∧
        (∀ r : RegIx, r.val ≠ a.toNat → t.reg r = s.reg r) ∧
        t.pc.val = s.pc.val + 3 ∧ t.mem = s.mem ∧ t.status = s.status ∧ t.out = s.out) ∧
    (s.pc.val = 255 → exec (.ldi a imm) s = .next (s.takeFault (.outOfBounds ((s.pc.val : Int) + 1)))) ∧
    (s.pc.val = 254 → exec (.ldi a imm) s = .next (s.takeFault (.outOfBounds ((s.pc.val : Int) + 2)))) ∧
    (s.pc.val + 3 ≤ 256 → 8 ≤ a.toNat → exec (.ldi a imm) s = .next (s.takeFault (.invalidRegister a)))

/-- R112: PRN's encoding, its effect, and its faults, which emit nothing. -/
def Obligations.PrnPrintsTheRegister : Prop :=
  ∀ (a : Byte) (s : State),
    encode (.prn a) = [0x47#8, a] ∧
    (∀ ha : a.toNat < 8, s.pc.val + 2 ≤ 256 →
      ∃ t, exec (.prn a) s = .next t ∧ t.out = s.out ++ [.print (s.reg ⟨a.toNat, ha⟩)] ∧
        (∀ r : RegIx, t.reg r = s.reg r) ∧
        t.pc.val = s.pc.val + 2 ∧ t.mem = s.mem ∧ t.status = s.status) ∧
    (s.pc.val = 255 → exec (.prn a) s = .next (s.takeFault (.outOfBounds 256))) ∧
    (s.pc.val + 2 ≤ 256 → 8 ≤ a.toNat → exec (.prn a) s = .next (s.takeFault (.invalidRegister a))) ∧
    (∀ f, (s.takeFault f).out = s.out)

/-- R124: ADD's encoding, its effect modulo 256, and its faults, A before B. -/
def Obligations.AddIsTheSumModulo256 : Prop :=
  ∀ (a b : Byte) (s : State),
    encode (.add a b) = [0xA0#8, a, b] ∧
    (∀ (ha : a.toNat < 8) (hb : b.toNat < 8), s.pc.val + 3 ≤ 256 →
      ∃ t, exec (.add a b) s = .next t ∧
        (t.reg ⟨a.toNat, ha⟩).toNat =
          ((s.reg ⟨a.toNat, ha⟩).toNat + (s.reg ⟨b.toNat, hb⟩).toNat) % 256 ∧
        (∀ r : RegIx, r.val ≠ a.toNat → t.reg r = s.reg r) ∧
        t.pc.val = s.pc.val + 3 ∧ t.mem = s.mem ∧ t.status = s.status ∧ t.out = s.out) ∧
    (s.pc.val = 255 → exec (.add a b) s = .next (s.takeFault (.outOfBounds ((s.pc.val : Int) + 1)))) ∧
    (s.pc.val = 254 → exec (.add a b) s = .next (s.takeFault (.outOfBounds ((s.pc.val : Int) + 2)))) ∧
    (s.pc.val + 3 ≤ 256 → 8 ≤ a.toNat → exec (.add a b) s = .next (s.takeFault (.invalidRegister a))) ∧
    (s.pc.val + 3 ≤ 256 → a.toNat < 8 → 8 ≤ b.toNat →
      exec (.add a b) s = .next (s.takeFault (.invalidRegister b)))

/-- R125: SUB's encoding, its effect (the non-negative remainder modulo 256), and its faults. -/
def Obligations.SubIsTheDifferenceModulo256 : Prop :=
  ∀ (a b : Byte) (s : State),
    encode (.sub a b) = [0xA1#8, a, b] ∧
    (∀ (ha : a.toNat < 8) (hb : b.toNat < 8), s.pc.val + 3 ≤ 256 →
      ∃ t, exec (.sub a b) s = .next t ∧
        ((t.reg ⟨a.toNat, ha⟩).toNat : Int) =
          (((s.reg ⟨a.toNat, ha⟩).toNat : Int) - ((s.reg ⟨b.toNat, hb⟩).toNat : Int)) % 256 ∧
        (∀ r : RegIx, r.val ≠ a.toNat → t.reg r = s.reg r) ∧
        t.pc.val = s.pc.val + 3 ∧ t.mem = s.mem ∧ t.status = s.status ∧ t.out = s.out) ∧
    (s.pc.val = 255 → exec (.sub a b) s = .next (s.takeFault (.outOfBounds ((s.pc.val : Int) + 1)))) ∧
    (s.pc.val = 254 → exec (.sub a b) s = .next (s.takeFault (.outOfBounds ((s.pc.val : Int) + 2)))) ∧
    (s.pc.val + 3 ≤ 256 → 8 ≤ a.toNat → exec (.sub a b) s = .next (s.takeFault (.invalidRegister a))) ∧
    (s.pc.val + 3 ≤ 256 → a.toNat < 8 → 8 ≤ b.toNat →
      exec (.sub a b) s = .next (s.takeFault (.invalidRegister b)))

/-- R126: MUL's encoding, its effect (the low 8 bits of the product), and its faults. -/
def Obligations.MulIsTheProductModulo256 : Prop :=
  ∀ (a b : Byte) (s : State),
    encode (.mul a b) = [0xA2#8, a, b] ∧
    (∀ (ha : a.toNat < 8) (hb : b.toNat < 8), s.pc.val + 3 ≤ 256 →
      ∃ t, exec (.mul a b) s = .next t ∧
        (t.reg ⟨a.toNat, ha⟩).toNat =
          ((s.reg ⟨a.toNat, ha⟩).toNat * (s.reg ⟨b.toNat, hb⟩).toNat) % 256 ∧
        (∀ r : RegIx, r.val ≠ a.toNat → t.reg r = s.reg r) ∧
        t.pc.val = s.pc.val + 3 ∧ t.mem = s.mem ∧ t.status = s.status ∧ t.out = s.out) ∧
    (s.pc.val = 255 → exec (.mul a b) s = .next (s.takeFault (.outOfBounds ((s.pc.val : Int) + 1)))) ∧
    (s.pc.val = 254 → exec (.mul a b) s = .next (s.takeFault (.outOfBounds ((s.pc.val : Int) + 2)))) ∧
    (s.pc.val + 3 ≤ 256 → 8 ≤ a.toNat → exec (.mul a b) s = .next (s.takeFault (.invalidRegister a))) ∧
    (s.pc.val + 3 ≤ 256 → a.toNat < 8 → 8 ≤ b.toNat →
      exec (.mul a b) s = .next (s.takeFault (.invalidRegister b)))

/-- R127: DIV's encoding, its effect (the truncated quotient, never above the dividend), and its faults,
DivisionByZero after the others. -/
def Obligations.DivIsTheTruncatedQuotient : Prop :=
  ∀ (a b : Byte) (s : State),
    encode (.div a b) = [0xA3#8, a, b] ∧
    (∀ (ha : a.toNat < 8) (hb : b.toNat < 8), s.pc.val + 3 ≤ 256 → s.reg ⟨b.toNat, hb⟩ ≠ 0#8 →
      ∃ t, exec (.div a b) s = .next t ∧
        (t.reg ⟨a.toNat, ha⟩).toNat =
          (s.reg ⟨a.toNat, ha⟩).toNat / (s.reg ⟨b.toNat, hb⟩).toNat ∧
        (t.reg ⟨a.toNat, ha⟩).toNat ≤ (s.reg ⟨a.toNat, ha⟩).toNat ∧
        (∀ r : RegIx, r.val ≠ a.toNat → t.reg r = s.reg r) ∧
        t.pc.val = s.pc.val + 3 ∧ t.mem = s.mem ∧ t.status = s.status ∧ t.out = s.out) ∧
    (s.pc.val = 255 → exec (.div a b) s = .next (s.takeFault (.outOfBounds ((s.pc.val : Int) + 1)))) ∧
    (s.pc.val = 254 → exec (.div a b) s = .next (s.takeFault (.outOfBounds ((s.pc.val : Int) + 2)))) ∧
    (s.pc.val + 3 ≤ 256 → 8 ≤ a.toNat → exec (.div a b) s = .next (s.takeFault (.invalidRegister a))) ∧
    (s.pc.val + 3 ≤ 256 → a.toNat < 8 → 8 ≤ b.toNat →
      exec (.div a b) s = .next (s.takeFault (.invalidRegister b))) ∧
    (∀ hb : b.toNat < 8, s.pc.val + 3 ≤ 256 → a.toNat < 8 → s.reg ⟨b.toNat, hb⟩ = 0#8 →
      exec (.div a b) s = .next (s.takeFault .divisionByZero))

/-- R123 (which the spec derives from R120): an ALU instruction whose two operands are one register, any of
them, r7 too. -/
def Obligations.AluOnOneRegisterTwice : Prop :=
  ∀ (a : Byte) (ha : a.toNat < 8) (s : State), s.pc.val + 3 ≤ 256 →
    (∃ t, exec (.add a a) s = .next t ∧
      (t.reg ⟨a.toNat, ha⟩).toNat = (2 * (s.reg ⟨a.toNat, ha⟩).toNat) % 256) ∧
    (∃ t, exec (.sub a a) s = .next t ∧ t.reg ⟨a.toNat, ha⟩ = 0#8) ∧
    (∃ t, exec (.mul a a) s = .next t ∧
      (t.reg ⟨a.toNat, ha⟩).toNat = ((s.reg ⟨a.toNat, ha⟩).toNat ^ 2) % 256) ∧
    (s.reg ⟨a.toNat, ha⟩ ≠ 0#8 → ∃ t, exec (.div a a) s = .next t ∧ t.reg ⟨a.toNat, ha⟩ = 1#8) ∧
    (s.reg ⟨a.toNat, ha⟩ = 0#8 → exec (.div a a) s = .next (s.takeFault .divisionByZero))

/-- R142: PUSH's encoding, its effect (PUSH r7 stores the new SP), and its faults. The stored byte is said
through reads: the cell at the new SP holds the value, every other address reads as before. -/
def Obligations.PushStoresBelowTheStackPointer : Prop :=
  ∀ (a : Byte) (s : State),
    encode (.push a) = [0x45#8, a] ∧
    (∀ ha : a.toNat < 8, s.pc.val + 2 ≤ 256 → 1 ≤ s.sp.toNat →
      ∃ t, exec (.push a) s = .next t ∧
        (t.reg 7).toNat = s.sp.toNat - 1 ∧
        (∀ r : RegIx, r ≠ 7 → t.reg r = s.reg r) ∧
        Memory.get t.mem (s.sp.toNat - 1) = (if a.toNat = 7 then s.sp - 1#8 else s.reg ⟨a.toNat, ha⟩) ∧
        (∀ c : Nat, c ≠ s.sp.toNat - 1 → Memory.get t.mem c = Memory.get s.mem c) ∧
        t.pc.val = s.pc.val + 2 ∧ t.status = s.status ∧ t.out = s.out) ∧
    (s.pc.val = 255 → exec (.push a) s = .next (s.takeFault (.outOfBounds 256))) ∧
    (s.pc.val + 2 ≤ 256 → 8 ≤ a.toNat → exec (.push a) s = .next (s.takeFault (.invalidRegister a))) ∧
    (s.pc.val + 2 ≤ 256 → a.toNat < 8 → s.sp = 0#8 →
      exec (.push a) s = .next (s.takeFault (.outOfBounds (-1))))

/-- R143: POP's encoding, its effect (POP r7 discards the popped value; no cell changes), and its faults. -/
def Obligations.PopLoadsFromTheStackPointer : Prop :=
  ∀ (a : Byte) (s : State),
    encode (.pop a) = [0x46#8, a] ∧
    (∀ ha : a.toNat < 8, s.pc.val + 2 ≤ 256 → s.sp.toNat ≤ 254 →
      ∃ t, exec (.pop a) s = .next t ∧
        (a.toNat ≠ 7 → t.reg ⟨a.toNat, ha⟩ = Memory.get s.mem s.sp.toNat) ∧
        (t.reg 7).toNat = s.sp.toNat + 1 ∧
        (∀ r : RegIx, r.val ≠ a.toNat → r ≠ 7 → t.reg r = s.reg r) ∧
        t.mem = s.mem ∧ t.pc.val = s.pc.val + 2 ∧ t.status = s.status ∧ t.out = s.out) ∧
    (s.pc.val = 255 → exec (.pop a) s = .next (s.takeFault (.outOfBounds 256))) ∧
    (s.pc.val + 2 ≤ 256 → 8 ≤ a.toNat → exec (.pop a) s = .next (s.takeFault (.invalidRegister a))) ∧
    (s.pc.val + 2 ≤ 256 → a.toNat < 8 → s.sp = 255#8 →
      exec (.pop a) s = .next (s.takeFault (.outOfBounds 256)))

/-! ## Frames: what an instruction leaves unchanged, whatever next state it answers -/

/-- LDI, ADD, SUB, MUL and DIV store nothing and emit nothing, and change no register but A's; the status
changes only by taking a fault, which changes nothing else. -/
def Obligations.FrameOfTheRegisterWriters : Prop :=
  ∀ (a b : Byte) (i : Instr) (s t : State),
    i ∈ [.ldi a b, .add a b, .sub a b, .mul a b, .div a b] → exec i s = .next t →
    (∀ r : RegIx, r.val ≠ a.toNat → t.reg r = s.reg r) ∧
    (∀ c : Nat, Memory.get t.mem c = Memory.get s.mem c) ∧
    t.out = s.out ∧ (t.status = s.status ∨ ∃ f, t = s.takeFault f)

/-- HLT and PRN store nothing and change no register; only HLT sets the halted flag, and PRN changes the
status only by taking a fault; the events emitted before stay. -/
def Obligations.FrameOfHltAndPrn : Prop :=
  ∀ (a : Byte) (i : Instr) (s t : State), i ∈ [.hlt, .prn a] → exec i s = .next t →
    (∀ r : RegIx, t.reg r = s.reg r) ∧
    (∀ c : Nat, Memory.get t.mem c = Memory.get s.mem c) ∧
    s.out <+: t.out ∧
    (t.status = s.status ∨ (i = .hlt ∧ t.status = .halted) ∨ ∃ f, t = s.takeFault f)

/-- PUSH changes no register but r7, the stack pointer it updates, and no cell but the one its address
function `State.pushAddress` gives; it emits nothing, and the status changes only by taking a fault. -/
def Obligations.FrameOfPush : Prop :=
  ∀ (a : Byte) (s t : State), exec (.push a) s = .next t →
    (∀ r : RegIx, r ≠ 7 → t.reg r = s.reg r) ∧
    (∀ (addr : Int), s.pushAddress = addr →
      ∀ c : Nat, (c : Int) ≠ addr → Memory.get t.mem c = Memory.get s.mem c) ∧
    t.out = s.out ∧ (t.status = s.status ∨ ∃ f, t = s.takeFault f)

/-- POP changes no register but A's and r7, the stack pointer it updates, stores nothing, emits nothing,
and the status changes only by taking a fault. -/
def Obligations.FrameOfPop : Prop :=
  ∀ (a : Byte) (s t : State), exec (.pop a) s = .next t →
    (∀ r : RegIx, r.val ≠ a.toNat → r ≠ 7 → t.reg r = s.reg r) ∧
    (∀ c : Nat, Memory.get t.mem c = Memory.get s.mem c) ∧
    t.out = s.out ∧ (t.status = s.status ∨ ∃ f, t = s.takeFault f)

/-- A register an instruction does not read (R31) does not matter to it: with another value in it, the
status, memory, pc, output and every other register come out the same, and so does that register itself
if the instruction completes and writes it (R185, R187). -/
def Obligations.UnreadRegistersDoNotMatter : Prop :=
  ∀ (i : Instr) (s t t' : State) (k : RegIx) (v : Byte),
    (∀ b ∈ regsRead i, b.toNat ≠ k.val) →
    exec i s = .next t → exec i (s.setReg k v) = .next t' →
    t'.status = t.status ∧ t'.mem = t.mem ∧ t'.pc = t.pc ∧ t'.out = t.out ∧
    (∀ r : RegIx, r ≠ k → t'.reg r = t.reg r) ∧
    ((∃ b ∈ regsWritten i, b.toNat = k.val) → t.NotFaulted → t'.reg k = t.reg k)

/-! ## Stack properties -/

/-- R145 (which the spec derives from R142 and R143), first part: PUSH rA then POP rA, A = 7 too, gives every
register back, SP going down by 1 and up by 1, provided 1 <= SP before. -/
def Obligations.PushThenPopRestoresTheRegisters : Prop :=
  ∀ (a : Byte) (s : State), a.toNat < 8 → s.pc.val + 4 ≤ 256 → 1 ≤ s.sp.toNat →
    ∃ t u, exec (.push a) s = .next t ∧ exec (.pop a) t = .next u ∧
      t.sp.toNat + 1 = s.sp.toNat ∧ u.sp.toNat = t.sp.toNat + 1 ∧
      (∀ r : RegIx, u.reg r = s.reg r) ∧ u.status = s.status

/-- R145 (which the spec derives from R142 and R143), second part: equally many PUSHes and POPs, interleaved
with ALU instructions that do not write r7, leave r7 at its starting value if none faults. -/
def Obligations.BalancedStackSequenceRestoresSp : Prop :=
  ∀ (is : List Instr) (s t : State),
    (∀ i ∈ is, StackOrAlu i) → is.countP isPush = is.countP isPop →
    s.status = .running → execSeq is s = .next t → t.NotFaulted →
    t.reg 7 = s.reg 7

/-! ## Memory -/

/-- R40 and R41: the bounds check of both accesses; a read answers the cell; a write is read back, and
every other address reads as before. -/
def Obligations.MemoryAccessesAreBoundsChecked : Prop :=
  ∀ (m : Memory) (addr : Int) (v : Byte),
    (¬(0 ≤ addr ∧ addr < 256) →
      memRead m addr = .error (.outOfBounds addr) ∧ memWrite m addr v = .error (.outOfBounds addr)) ∧
    (0 ≤ addr ∧ addr < 256 →
      memRead m addr = .ok (Memory.get m addr.toNat) ∧
      ∃ m', memWrite m addr v = .ok m' ∧ memRead m' addr = .ok v ∧
        ∀ c : Int, c ≠ addr → memRead m' c = memRead m c)

/-- The memory's form is canonical: two memories in that form that read the same at every address are the
same list, so a run's memory can be compared as data. -/
def Obligations.EqualMemoriesAreEqualLists : Prop :=
  ∀ m n : Memory, Memory.wf m → Memory.wf n →
    (∀ a : Nat, a < 256 → Memory.get m a = Memory.get n a) → m = n

/-! ## Invariants and runs -/

/-- The reset state, for every draw of `INIT_REGS`, meets the invariant. Its canonical memory is the model's
own form (log entry 4), and its range of a fault's info is log entry 12. -/
def Obligations.ResetMeetsTheInvariant : Prop :=
  (∀ init : InitRegs, (State.resetWith init).Inv) ∧ State.reset.Inv

/-- Every step keeps the invariant, from every state that meets it: canonical memory (the model's own form, log
entry 4), a fault's info in its range (R160's, with OutOfBounds of -1 or 256 only: log entry 12, deduced
from R84), and HaltNotice emitted once, last, exactly in Halted (R26, R27, R30). -/
def Obligations.StepKeepsTheInvariant : Prop :=
  ∀ s t : State, s.Inv → step s = .next t → t.Inv

/-- Every accepted command of the host keeps the session's invariant, loading included. The session's bit
`loadAllowed` is the model's own (log entry 6), as is the canonical memory (log entry 4); the range of a
fault's info is log entry 12, deduced from R84. -/
def Obligations.CommandsKeepTheSessionInvariant : Prop :=
  ∀ (c : Command) (q q' : Session), q.Inv → q.apply c = .next q' → q'.Inv

/-- R97 (which the spec derives from R81, R86 and R180): a step that completes raises the pc; every run ends
within 257 steps, from any state; so a larger budget changes nothing (R98). That `run` is a loop bounded by
257 is log entry 11. -/
def Obligations.EveryRunEndsWithin257Steps : Prop :=
  (∀ s t : State, s.status = .running → step s = .next t → t.NotFaulted → s.pc.val + 1 ≤ t.pc.val) ∧
  (∀ s : State, ∃ t, runFor 257 s = .next t ∧ t.Stopped) ∧
  (∀ (s : State) (k : Nat), runFor (257 + k) s = run s)

/-- A run from a good running state either ends Faulted or ends in Halted, having emitted HaltNotice once,
as its last event, with the pc at the byte after an HLT (R26, R95, R100, R163). That `run` is a loop bounded
by 257 is log entry 11. -/
def Obligations.SafeRunsEndAtHlt : Prop :=
  ∀ s t : State, s.Inv → s.status = .running → run s = .next t →
    (∃ f, t.status = .faulted f) ∨
    (t.status = .halted ∧ SafeFor 257 s ∧ t.out.count .haltNotice = 1 ∧
      t.out.getLast? = some .haltNotice ∧ 1 ≤ t.pc.val ∧ t.opcodeAt (t.pc.val - 1) = 0x01#8)
end

