-- ==== Sys2Proof/Laws/Memory.lean ====
section
/-! SUPPORT. The laws of memory: read after write, the canonical form, and the spec lemmas of the accesses. -/

namespace Sys2Proof.Machine

theorem get_insert (m : Memory) (a c : Nat) (v : Byte) :
    Memory.get (Memory.insert m a v) c = if c = a then v else Memory.get m c := by
  induction m with
  | nil => rfl
  | cons p m ih =>
    obtain ⟨b, w⟩ := p
    simp only [Memory.insert]
    split
    · rfl
    · split
      · subst ‹a = b›
        simp only [Memory.get]
        split <;> rfl
      · simp only [Memory.get, ih]
        split <;> split <;> first | rfl | omega

theorem get_erase (m : Memory) (a c : Nat) :
    Memory.get (Memory.erase m a) c = if c = a then Memory.unlisted else Memory.get m c := by
  induction m with
  | nil => simp [Memory.erase, Memory.get]
  | cons p m ih =>
    obtain ⟨b, w⟩ := p
    simp only [Memory.erase, List.filter_cons] at ih ⊢
    by_cases hb : b = a
    · subst hb
      simp only [bne_self_eq_false, Bool.false_eq_true, if_false, ih, Memory.get]
      split <;> rfl
    · simp only [bne_iff_ne, ne_eq, hb, not_false_eq_true, if_true, Memory.get, ih]
      split <;> split <;> first | rfl | omega

/-- Read after write, at every address and for every memory (R41, R48). -/
theorem get_set (m : Memory) (a c : Nat) (v : Byte) :
    Memory.get (Memory.set m a v) c = if c = a then v else Memory.get m c := by
  unfold Memory.set
  split
  · rw [get_erase, ‹v = Memory.unlisted›]
  · exact get_insert m a c v

@[simp] theorem get_set_same (m : Memory) (a : Nat) (v : Byte) :
    Memory.get (Memory.set m a v) a = v := by simp [get_set]

theorem get_set_other (m : Memory) {a c : Nat} (v : Byte) (h : c ≠ a) :
    Memory.get (Memory.set m a v) c = Memory.get m c := by simp [get_set, h]

theorem mem_insert {m : Memory} {a : Nat} {v : Byte} {c : Host.Cell}
    (h : c ∈ Memory.insert m a v) : c = (a, v) ∨ c ∈ m := by
  induction m with
  | nil => simpa [Memory.insert] using h
  | cons p m ih =>
    obtain ⟨b, w⟩ := p
    simp only [Memory.insert] at h
    split at h
    · simpa using h
    · split at h
      · simp only [List.mem_cons] at h ⊢
        tauto
      · simp only [List.mem_cons] at h ⊢
        rcases h with h | h
        · exact .inr (.inl h)
        · have := ih h
          tauto

theorem insert_pairwise {m : Memory} (a : Nat) (v : Byte)
    (h : List.Pairwise (fun c d => c.1 < d.1) m) :
    List.Pairwise (fun c d => c.1 < d.1) (Memory.insert m a v) := by
  induction m with
  | nil => simp [Memory.insert]
  | cons p m ih =>
    obtain ⟨b, w⟩ := p
    rw [List.pairwise_cons] at h
    simp only [Memory.insert]
    split
    · rename_i hab
      refine List.pairwise_cons.2 ⟨?_, List.pairwise_cons.2 h⟩
      intro c hc
      rcases List.mem_cons.1 hc with rfl | hc
      · exact hab
      · exact Nat.lt_trans hab (h.1 c hc)
    · split
      · subst ‹a = b›
        exact List.pairwise_cons.2 h
      · refine List.pairwise_cons.2 ⟨?_, ih h.2⟩
        intro c hc
        rcases mem_insert hc with rfl | hc
        · show b < a
          omega
        · exact h.1 c hc

/-- A store keeps the canonical form. -/
theorem set_wf {m : Memory} {a : Nat} (v : Byte) (h : Memory.wf m) (ha : a < 256) :
    Memory.wf (Memory.set m a v) := by
  unfold Memory.set
  split
  · exact ⟨h.1.filter _, fun c hc => h.2 c (List.mem_of_mem_filter hc)⟩
  · refine ⟨insert_pairwise a v h.1, fun c hc => ?_⟩
    rcases mem_insert hc with rfl | hc
    · exact ⟨ha, ‹_›⟩
    · exact h.2 c hc

theorem nil_wf : Memory.wf [] := by simp [Memory.wf]

/-- Storing bytes below address 256 keeps the canonical form. -/
theorem storeBytes_wf (bs : List Byte) {m : Memory} {base : Nat} (h : Memory.wf m)
    (hb : base + bs.length ≤ 256) : Memory.wf (Memory.storeBytes m base bs) := by
  induction bs generalizing m base with
  | nil => exact h
  | cons v vs ih =>
    simp only [List.length_cons] at hb
    exact ih (set_wf v h (by omega)) (by omega)

/-- A byte read after storing a run of bytes: the run's byte inside it, the old byte outside. -/
theorem get_storeBytes (bs : List Byte) (m : Memory) (base c : Nat) :
    Memory.get (Memory.storeBytes m base bs) c =
      if h : base ≤ c ∧ c - base < bs.length then bs[c - base]'h.2 else Memory.get m c := by
  induction bs generalizing m base with
  | nil => simp [Memory.storeBytes]
  | cons v vs ih =>
    simp only [Memory.storeBytes, ih, get_set, List.length_cons]
    by_cases h1 : base + 1 ≤ c ∧ c - (base + 1) < vs.length
    · have h2 : base ≤ c ∧ c - base < vs.length + 1 := by omega
      obtain ⟨k, rfl⟩ : ∃ k, c = base + 1 + k := ⟨c - (base + 1), by omega⟩
      have e1 : base + 1 + k - base = k + 1 := by omega
      have e2 : base + 1 + k - (base + 1) = k := by omega
      simp only [e1, e2] at h1 h2 ⊢
      rw [dif_pos h1, dif_pos h2]
      simp
    · rw [dif_neg h1]
      by_cases hc : c = base
      · subst hc
        simp
      · rw [if_neg hc, dif_neg (by omega)]

/-- The bounds check, whole (R42). -/
theorem checkAddress_cases (addr : Int) :
    (∃ a : Nat, a < 256 ∧ addr = (a : Int) ∧ checkAddress addr = .ok a) ∨
    (¬(0 ≤ addr ∧ addr < 256) ∧ checkAddress addr = .error (.outOfBounds addr)) := by
  unfold checkAddress
  split
  · exact .inl ⟨addr.toNat, by omega, by omega, rfl⟩
  · exact .inr ⟨‹_›, rfl⟩

@[simp] theorem checkAddress_ofNat {a : Nat} (h : a < 256) : checkAddress (a : Int) = .ok a := by
  have : (0 : Int) ≤ a ∧ (a : Int) < 256 := by omega
  simp [checkAddress, this]

@[simp] theorem memRead_ofNat (m : Memory) {a : Nat} (h : a < 256) :
    memRead m (a : Int) = .ok (Memory.get m a) := by simp [memRead, h]

theorem memRead_out (m : Memory) {addr : Int} (h : ¬(0 ≤ addr ∧ addr < 256)) :
    memRead m addr = .error (.outOfBounds addr) := by simp [memRead, checkAddress, h]

@[simp] theorem memWrite_ofNat (m : Memory) {a : Nat} (v : Byte) (h : a < 256) :
    memWrite m (a : Int) v = .ok (Memory.set m a v) := by simp [memWrite, h]

/-- A memory write answers a canonical memory or OutOfBounds. -/
theorem memWrite_wf {m m' : Memory} {addr : Int} {v : Byte} (h : Memory.wf m)
    (hw : memWrite m addr v = .ok m') : Memory.wf m' := by
  rcases checkAddress_cases addr with ⟨a, ha, rfl, hc⟩ | ⟨_, hc⟩
  · simp only [memWrite, hc, Except.ok.injEq] at hw
    exact hw ▸ set_wf v h ha
  · simp [memWrite, hc] at hw

end Sys2Proof.Machine
end

