-- ==== Sys2Proof/Laws/State.lean ====
section
/-! SUPPORT. One lemma per field per update of State, true by rfl, and the register file's read after write. -/

namespace Sys2Proof.Machine

variable (s : State) (f : Fault) (e : Event) (r : RegIx) (v : Byte) (init : InitRegs)

@[simp] theorem takeFault_mem : (s.takeFault f).mem = s.mem := rfl
@[simp] theorem takeFault_x : (s.takeFault f).x = s.x := rfl
@[simp] theorem takeFault_pc : (s.takeFault f).pc = s.pc := rfl
@[simp] theorem takeFault_status : (s.takeFault f).status = .faulted f := rfl
@[simp] theorem takeFault_out : (s.takeFault f).out = s.out := rfl
@[simp] theorem takeFault_reg : (s.takeFault f).reg r = s.reg r := rfl

@[simp] theorem emit_mem : (s.emit e).mem = s.mem := rfl
@[simp] theorem emit_x : (s.emit e).x = s.x := rfl
@[simp] theorem emit_pc : (s.emit e).pc = s.pc := rfl
@[simp] theorem emit_status : (s.emit e).status = s.status := rfl
@[simp] theorem emit_out : (s.emit e).out = s.out ++ [e] := rfl
@[simp] theorem emit_reg : (s.emit e).reg r = s.reg r := rfl

@[simp] theorem halt_mem : s.halt.mem = s.mem := rfl
@[simp] theorem halt_x : s.halt.x = s.x := rfl
@[simp] theorem halt_pc : s.halt.pc = s.pc := rfl
@[simp] theorem halt_status : s.halt.status = .halted := rfl
@[simp] theorem halt_out : s.halt.out = s.out := rfl
@[simp] theorem halt_reg : s.halt.reg r = s.reg r := rfl

@[simp] theorem setReg_mem : (s.setReg r v).mem = s.mem := rfl
@[simp] theorem setReg_pc : (s.setReg r v).pc = s.pc := rfl
@[simp] theorem setReg_status : (s.setReg r v).status = s.status := rfl
@[simp] theorem setReg_out : (s.setReg r v).out = s.out := rfl

/-- A record update of other fields leaves the registers. -/
@[simp] theorem reg_mk (m : Memory) (p : Pc) (st : Status) (o : List Event) :
    State.reg ⟨m, s.x, p, st, o⟩ r = s.reg r := rfl

/-- Reading a register after a write of one (R22): every register reads back, none is hardwired. -/
theorem reg_setReg (q : RegIx) : (s.setReg r v).reg q = if q = r then v else s.reg q := by
  simp only [State.reg, State.setReg, Fin.getElem_fin, Vector.getElem_set, Fin.ext_iff, eq_comm]

@[simp] theorem reg_setReg_same : (s.setReg r v).reg r = v := by simp [reg_setReg]

theorem reg_setReg_other {q : RegIx} (h : q ≠ r) : (s.setReg r v).reg q = s.reg q := by
  simp [reg_setReg, h]

@[simp] theorem setReg_setReg_same (w : Byte) : (s.setReg r v).setReg r w = s.setReg r w := by
  simp [State.setReg]

@[simp] theorem resetWith_mem : (State.resetWith init).mem = [] := rfl
@[simp] theorem resetWith_pc : (State.resetWith init).pc = 0 := rfl
@[simp] theorem resetWith_status : (State.resetWith init).status = .running := rfl
@[simp] theorem resetWith_out : (State.resetWith init).out = [] := rfl

end Sys2Proof.Machine
end

