-- ==== Sys2Proof/Laws/Ops.lean ====
section
/-! SUPPORT. The spec lemma of each shared operation: everything it can answer, said once. -/

namespace Sys2Proof.Machine

@[simp] theorem except_ok_bind {ε α β : Type} (a : α) (k : α → Except ε β) :
    (Except.ok a >>= k) = k a := rfl

@[simp] theorem except_error_bind {ε α β : Type} (e : ε) (k : α → Except ε β) :
    ((Except.error e : Except ε α) >>= k) = .error e := rfl

@[simp] theorem except_pure {ε α : Type} (a : α) : (pure a : Except ε α) = .ok a := rfl

/-- What a bind that completes has done. -/
theorem except_bind_ok {ε α β : Type} {r : Except ε α} {k : α → Except ε β} {b : β}
    (h : (r >>= k) = .ok b) : ∃ a, r = .ok a ∧ k a = .ok b := by
  cases r with
  | ok a => exact ⟨a, rfl, h⟩
  | error e => cases h

/-- What a bind that raises has done. -/
theorem except_bind_error {ε α β : Type} {r : Except ε α} {k : α → Except ε β} {e : ε}
    (h : (r >>= k) = .error e) : r = .error e ∨ ∃ a, r = .ok a ∧ k a = .error e := by
  cases r with
  | ok a => exact .inr ⟨a, rfl, h⟩
  | error e' => exact .inl (by simpa using h)

@[simp] theorem finish_ok (s t : State) : s.finish (.ok t) = .next t := rfl
@[simp] theorem finish_error (s : State) (f : Fault) : s.finish (.error f) = .next (s.takeFault f) := rfl

/-- The only two ways a step ends: its writes, or a fault that changes the status alone (R162). -/
theorem finish_cases (s : State) (r : Except Fault State) :
    (∃ t, r = .ok t ∧ s.finish r = .next t) ∨ (∃ f, r = .error f ∧ s.finish r = .next (s.takeFault f)) := by
  cases r with
  | ok t => exact .inl ⟨t, rfl, rfl⟩
  | error f => exact .inr ⟨f, rfl, rfl⟩

/-- The pc's advance, whole (R86). -/
theorem pcAfter_cases (s : State) (len : Nat) :
    (∃ p : Pc, p.val = s.pc.val + len ∧ s.pcAfter len = .ok p) ∨
    (257 ≤ s.pc.val + len ∧ s.pcAfter len = .error (.outOfBounds 256)) := by
  unfold State.pcAfter
  split
  · exact .inl ⟨_, rfl, rfl⟩
  · exact .inr ⟨by omega, rfl⟩

theorem pcAfter_fits (s : State) {len : Nat} (h : s.pc.val + len < 257) :
    s.pcAfter len = .ok ⟨s.pc.val + len, h⟩ := by simp [State.pcAfter, h]

theorem pcAfter_past (s : State) {len : Nat} (h : 256 < s.pc.val + len) :
    s.pcAfter len = .error (.outOfBounds 256) := by
  simp [State.pcAfter]
  omega

/-- The register operand check, whole (R24). -/
theorem regOperand_cases (a : Byte) :
    (∃ r : RegIx, r.val = a.toNat ∧ regOperand a = .ok r) ∨
    (8 ≤ a.toNat ∧ regOperand a = .error (.invalidRegister a)) := by
  unfold regOperand
  split
  · exact .inl ⟨_, rfl, rfl⟩
  · exact .inr ⟨by omega, rfl⟩

theorem regOperand_valid {a : Byte} (h : a.toNat < 8) : regOperand a = .ok ⟨a.toNat, h⟩ := by
  simp [regOperand, h]

theorem regOperand_invalid {a : Byte} (h : 8 ≤ a.toNat) : regOperand a = .error (.invalidRegister a) := by
  simp [regOperand]
  omega

/-- The SP bound, whole (R144). -/
theorem stackPointer_cases (nsp : Int) :
    (∃ v : Byte, nsp = (v.toNat : Int) ∧ stackPointer nsp = .ok v) ∨
    (¬(0 ≤ nsp ∧ nsp < 256) ∧ stackPointer nsp = .error (.outOfBounds nsp)) := by
  unfold stackPointer
  rcases checkAddress_cases nsp with ⟨a, ha, h, hc⟩ | ⟨h, hc⟩
  · exact .inl ⟨BitVec.ofNat 8 a, by simp [h]; omega, by rw [hc]⟩
  · exact .inr ⟨h, by rw [hc]⟩

theorem stackPointer_ofNat {n : Nat} (h : n < 256) : stackPointer (n : Int) = .ok (BitVec.ofNat 8 n) := by
  simp [stackPointer, h]

/-- A wrapped result read as an integer is the exact one modulo 256 (R121). -/
theorem wrap_toNat (v : Int) : ((wrap v).toNat : Int) = v % 256 := by
  simp only [wrap, BitVec.toNat_ofInt]
  omega

/-- The ALU's result, operation by operation, as 8-bit arithmetic. -/
theorem aluResult_add (va vb : Byte) : aluResult .add va vb = .ok (va + vb) := by
  simp only [aluResult, Except.ok.injEq]
  apply BitVec.eq_of_toNat_eq
  have := wrap_toNat ((va.toNat : Int) + (vb.toNat : Int))
  rw [BitVec.toNat_add]
  omega

theorem aluResult_sub (va vb : Byte) : aluResult .sub va vb = .ok (va - vb) := by
  simp only [aluResult, Except.ok.injEq]
  apply BitVec.eq_of_toNat_eq
  have := wrap_toNat ((va.toNat : Int) - (vb.toNat : Int))
  have hb := vb.isLt
  rw [BitVec.toNat_sub]
  omega

theorem aluResult_mul (va vb : Byte) : aluResult .mul va vb = .ok (va * vb) := by
  simp only [aluResult, Except.ok.injEq]
  apply BitVec.eq_of_toNat_eq
  have := wrap_toNat ((va.toNat : Int) * (vb.toNat : Int))
  rw [← Int.natCast_mul] at this ⊢
  rw [BitVec.toNat_mul]
  omega

theorem aluResult_div {vb : Byte} (va : Byte) (h : vb ≠ 0#8) : aluResult .div va vb = .ok (va / vb) := by
  simp only [aluResult, h, if_false, Except.ok.injEq]
  apply BitVec.eq_of_toNat_eq
  have := wrap_toNat ((va.toNat / vb.toNat : Nat) : Int)
  have h1 : va.toNat / vb.toNat ≤ va.toNat := Nat.div_le_self _ _
  have h2 := va.isLt
  rw [BitVec.toNat_udiv]
  generalize va.toNat / vb.toNat = q at *
  omega

theorem aluResult_div_zero (va : Byte) : aluResult .div va 0#8 = .error .divisionByZero := rfl

end Sys2Proof.Machine
end

