-- ==== Sys2Proof/Laws/Decode.lean ====
section
/-! SUPPORT. The opcode map, the decoder and the fetch: their spec lemmas. -/

namespace Sys2Proof

/-- The byte test of the opcode map, as a chain of equalities (R65: all eight bits). -/
theorem ofByte_eq (ir : Byte) : Opcode.ofByte ir =
    if ir = 0x01#8 then some .hlt else if ir = 0x82#8 then some .ldi else if ir = 0x47#8 then some .prn
    else if ir = 0xA0#8 then some .add else if ir = 0xA1#8 then some .sub else if ir = 0xA2#8 then some .mul
    else if ir = 0xA3#8 then some .div else if ir = 0x45#8 then some .push
    else if ir = 0x46#8 then some .pop else none := by
  revert ir
  decide

/-- The map and the opcodes' bytes agree, both ways (R64, R65). -/
theorem ofByte_eq_some {ir : Byte} {op : Opcode} : Opcode.ofByte ir = some op ↔ ir = op.toByte := by
  constructor
  · intro h
    rw [ofByte_eq] at h
    repeat' split at h
    all_goals first | (cases h; assumption) | cases h
  · rintro rfl
    cases op <;> decide

@[simp] theorem ofByte_toByte (op : Opcode) : Opcode.ofByte op.toByte = some op := ofByte_eq_some.2 rfl

/-- The length rule agrees with the formats for every opcode (R66). -/
@[simp] theorem insnLength_toByte (op : Opcode) : insnLength op.toByte = op.format.length := by
  cases op <;> decide

/-- The decoder on an opcode's byte and the bytes after it, format by format (R62). -/
theorem decode_toByte (op : Opcode) (tl : List Byte) : decode (op.toByte :: tl) =
    match op.format, tl with
    | .F0, tl => .ok (op.build 0#8 0#8, tl)
    | .F1, a :: tl => .ok (op.build a 0#8, tl)
    | .F1, [] => .error (.endOfBytes 1)
    | .F2, a :: b :: tl => .ok (op.build a b, tl)
    | .F2, [_] => .error (.endOfBytes 2)
    | .F2, [] => .error (.endOfBytes 1) := by
  simp only [decode, ofByte_toByte, insnLength_toByte]
  cases op <;> rcases tl with _ | ⟨a, _ | ⟨b, tl⟩⟩ <;> rfl

/-- The decoder rejects an illegal opcode byte by name, whatever follows (R67, R83). -/
theorem decode_unknown {ir : Byte} (h : Opcode.ofByte ir = none) (tl : List Byte) :
    decode (ir :: tl) = .error (.unknownOpcode ir) := by
  simp [decode, h]

namespace Machine

/-- What the fetch can answer: the instruction of the opcode at the pc with the operand bytes after it,
all of them in memory; or the first fault of R88 items 1 to 3. -/
theorem fetch_cases (s : State) :
    (256 ≤ s.pc.val ∧ fetch s = .error (.outOfBounds 256)) ∨
    (s.pc.val < 256 ∧ Opcode.ofByte (Memory.get s.mem s.pc.val) = none ∧
      fetch s = .error (.unknownOpcode (Memory.get s.mem s.pc.val))) ∨
    (∃ op : Opcode, s.pc.val < 256 ∧ Memory.get s.mem s.pc.val = op.toByte ∧
      ((256 < s.pc.val + op.format.length ∧ fetch s = .error (.outOfBounds 256)) ∨
       (s.pc.val + op.format.length ≤ 256 ∧
        fetch s = .ok (op.build (Memory.get s.mem (s.pc.val + 1)) (Memory.get s.mem (s.pc.val + 2)))))) := by
  by_cases hpc : s.pc.val < 256
  · right
    cases hop : Opcode.ofByte (Memory.get s.mem s.pc.val) with
    | none => exact .inl ⟨hpc, rfl, by simp [fetch, hpc, hop]⟩
    | some op =>
      have hb := ofByte_eq_some.1 hop
      refine .inr ⟨op, hpc, hb, ?_⟩
      have e1 : ((s.pc.val : Int) + 1) = ((s.pc.val + 1 : Nat) : Int) := rfl
      have e2 : ((s.pc.val : Int) + 2) = ((s.pc.val + 2 : Nat) : Int) := rfl
      have o1 : s.pc.val = 255 → memRead s.mem ((s.pc.val : Int) + 1) = .error (.outOfBounds 256) :=
        fun h => by rw [memRead_out _ (by omega)]; congr; omega
      have o2 : s.pc.val = 254 → memRead s.mem ((s.pc.val : Int) + 2) = .error (.outOfBounds 256) :=
        fun h => by rw [memRead_out _ (by omega)]; congr; omega
      have r1 : s.pc.val + 1 < 256 →
          memRead s.mem ((s.pc.val : Int) + 1) = .ok (Memory.get s.mem (s.pc.val + 1)) :=
        fun h => by rw [e1, memRead_ofNat _ h]
      have r2 : s.pc.val + 2 < 256 →
          memRead s.mem ((s.pc.val : Int) + 2) = .ok (Memory.get s.mem (s.pc.val + 2)) :=
        fun h => by rw [e2, memRead_ofNat _ h]
      have hf : fetch s =
          (readOperand s.mem (decide (2 ≤ op.format.length)) ((s.pc.val : Int) + 1) >>= fun a =>
            readOperand s.mem (decide (3 ≤ op.format.length)) ((s.pc.val : Int) + 2) >>= fun b =>
              .ok (op.build a b)) := by
        simp only [fetch, memRead_ofNat _ hpc, except_ok_bind, hop]
        rw [hb, insnLength_toByte]
      rw [hf]
      rcases (by omega : s.pc.val = 255 ∨ s.pc.val = 254 ∨ s.pc.val < 254) with h | h | h
      · cases op <;> simp [Opcode.format, Format.length, readOperand, Opcode.build, o1 h] <;> omega
      · cases op <;> simp [Opcode.format, Format.length, readOperand, Opcode.build, r1 (by omega), o2 h] <;> omega
      · have h1 : s.pc.val + op.format.length ≤ 256 := by
          cases op <;> simp only [Opcode.format, Format.length] <;> omega
        refine .inr ⟨h1, ?_⟩
        cases op <;> simp [Opcode.format, Format.length, readOperand, Opcode.build, r1 (by omega), r2 (by omega)]
  · exact .inl ⟨by omega, by
      have : s.pc.val = 256 := by omega
      simp [fetch, this, memRead_out]⟩

/-- The bytes at the pc: as many as there are up to address 255, at most three. -/
theorem window_cases (s : State) :
    (s.pc.val = 256 ∧ s.window = []) ∨
    (s.pc.val = 255 ∧ s.window = [Memory.get s.mem s.pc.val]) ∨
    (s.pc.val = 254 ∧ s.window = [Memory.get s.mem s.pc.val, Memory.get s.mem (s.pc.val + 1)]) ∨
    (s.pc.val < 254 ∧ s.window = [Memory.get s.mem s.pc.val, Memory.get s.mem (s.pc.val + 1),
      Memory.get s.mem (s.pc.val + 2)]) := by
  have hlt := s.pc.isLt
  simp only [State.window, Memory.bytesFrom, Config.memSize]
  by_cases h0 : s.pc.val < 256
  · by_cases h1 : s.pc.val + 1 < 256
    · by_cases h2 : s.pc.val + 1 + 1 < 256
      · simp only [h0, h1, h2, if_true]
        exact .inr (.inr (.inr ⟨by omega, trivial⟩))
      · simp only [h0, h1, h2, if_true, if_false]
        exact .inr (.inr (.inl ⟨by omega, trivial⟩))
    · simp only [h0, h1, if_true, if_false]
      exact .inr (.inl ⟨by omega, trivial⟩)
  · simp only [h0, if_false]
    exact .inl ⟨by omega, trivial⟩

/-- The fetch reads what the decoder reads from the bytes at the pc: the same instruction, or a fault
where the decoder finds none. -/
theorem fetch_window (s : State) :
    (∃ i rest, decode s.window = .ok (i, rest) ∧ fetch s = .ok i) ∨
    (∃ e f, decode s.window = .error e ∧ fetch s = .error f) := by
  rcases fetch_cases s with ⟨h, e⟩ | ⟨h, h', e⟩ | ⟨op, h, hb, h'⟩
  · rcases window_cases s with ⟨_, w⟩ | ⟨_, w⟩ | ⟨_, w⟩ | ⟨_, w⟩
    · exact .inr ⟨_, _, by rw [w]; rfl, e⟩
    all_goals omega
  · rcases window_cases s with ⟨_, w⟩ | ⟨_, w⟩ | ⟨_, w⟩ | ⟨_, w⟩
    · omega
    all_goals exact .inr ⟨_, _, by rw [w, decode_unknown h'], e⟩
  · rcases window_cases s with ⟨hw, w⟩ | ⟨hw, w⟩ | ⟨hw, w⟩ | ⟨hw, w⟩
    · omega
    all_goals
      rw [w, hb, decode_toByte]
      rcases h' with ⟨h', e⟩ | ⟨h', e⟩ <;> rw [e] <;> cases op <;>
        simp only [Opcode.format, Format.length] at h' <;>
        first
          | omega
          | exact .inl ⟨_, _, rfl, rfl⟩
          | exact .inr ⟨_, _, rfl, rfl⟩

end Machine

end Sys2Proof
end

