-- ==== Sys2Proof/Laws/Exec.lean ====
section
/-! SUPPORT. One inversion lemma per meaning: every outcome it can answer, with what makes it answer so. -/

namespace Sys2Proof.Machine

variable (s : State) (a b imm : Byte)

/-- HLT (R100). -/
theorem execHlt_cases :
    (256 < s.pc.val + 1 ∧ execHlt s = .next (s.takeFault (.outOfBounds 256))) ∨
    (∃ p : Pc, p.val = s.pc.val + 1 ∧ execHlt s = .next { s.halt.emit .haltNotice with pc := p }) := by
  rcases pcAfter_cases s 1 with ⟨p, hp, e⟩ | ⟨h, e⟩
  · exact .inr ⟨p, hp, by simp [execHlt, e]⟩
  · exact .inl ⟨by omega, by simp [execHlt, e]⟩

/-- LDI (R110). -/
theorem execLdi_cases :
    (256 < s.pc.val + 3 ∧ execLdi a imm s = .next (s.takeFault (.outOfBounds 256))) ∨
    (s.pc.val + 3 ≤ 256 ∧ 8 ≤ a.toNat ∧ execLdi a imm s = .next (s.takeFault (.invalidRegister a))) ∨
    (∃ (p : Pc) (r : RegIx), p.val = s.pc.val + 3 ∧ r.val = a.toNat ∧
      execLdi a imm s = .next { s.setReg r imm with pc := p }) := by
  rcases pcAfter_cases s 3 with ⟨p, hp, e⟩ | ⟨h, e⟩
  · rcases regOperand_cases a with ⟨r, hr, e'⟩ | ⟨h', e'⟩
    · exact .inr (.inr ⟨p, r, hp, hr, by simp [execLdi, e, e']⟩)
    · exact .inr (.inl ⟨by omega, h', by simp [execLdi, e, e']⟩)
  · exact .inl ⟨by omega, by simp [execLdi, e]⟩

/-- PRN (R112). -/
theorem execPrn_cases :
    (256 < s.pc.val + 2 ∧ execPrn a s = .next (s.takeFault (.outOfBounds 256))) ∨
    (s.pc.val + 2 ≤ 256 ∧ 8 ≤ a.toNat ∧ execPrn a s = .next (s.takeFault (.invalidRegister a))) ∨
    (∃ (p : Pc) (r : RegIx), p.val = s.pc.val + 2 ∧ r.val = a.toNat ∧
      execPrn a s = .next { s.emit (.print (s.reg r)) with pc := p }) := by
  rcases pcAfter_cases s 2 with ⟨p, hp, e⟩ | ⟨h, e⟩
  · rcases regOperand_cases a with ⟨r, hr, e'⟩ | ⟨h', e'⟩
    · exact .inr (.inr ⟨p, r, hp, hr, by simp [execPrn, e, e']⟩)
    · exact .inr (.inl ⟨by omega, h', by simp [execPrn, e, e']⟩)
  · exact .inl ⟨by omega, by simp [execPrn, e]⟩

/-- The ALU's template (R120), whatever the operation. -/
theorem alu_cases (op : AluOp) :
    (256 < s.pc.val + 3 ∧ alu op a b s = .next (s.takeFault (.outOfBounds 256))) ∨
    (s.pc.val + 3 ≤ 256 ∧ 8 ≤ a.toNat ∧ alu op a b s = .next (s.takeFault (.invalidRegister a))) ∨
    (s.pc.val + 3 ≤ 256 ∧ a.toNat < 8 ∧ 8 ≤ b.toNat ∧
      alu op a b s = .next (s.takeFault (.invalidRegister b))) ∨
    (∃ (p : Pc) (ra rb : RegIx), p.val = s.pc.val + 3 ∧ ra.val = a.toNat ∧ rb.val = b.toNat ∧
      ((∃ v, aluResult op (s.reg ra) (s.reg rb) = .ok v ∧
          alu op a b s = .next { s.setReg ra v with pc := p }) ∨
        (∃ f, aluResult op (s.reg ra) (s.reg rb) = .error f ∧
          alu op a b s = .next (s.takeFault f)))) := by
  rcases pcAfter_cases s 3 with ⟨p, hp, e⟩ | ⟨h, e⟩
  · rcases regOperand_cases a with ⟨ra, hra, ea⟩ | ⟨h', ea⟩
    · rcases regOperand_cases b with ⟨rb, hrb, eb⟩ | ⟨h', eb⟩
      · refine .inr (.inr (.inr ⟨p, ra, rb, hp, hra, hrb, ?_⟩))
        cases er : aluResult op (s.reg ra) (s.reg rb) with
        | ok v => exact .inl ⟨v, rfl, by simp [alu, e, ea, eb, er]⟩
        | error f => exact .inr ⟨f, rfl, by simp [alu, e, ea, eb, er]⟩
      · exact .inr (.inr (.inl ⟨by omega, by omega, h', by simp [alu, e, ea, eb]⟩))
    · exact .inr (.inl ⟨by omega, h', by simp [alu, e, ea]⟩)
  · exact .inl ⟨by omega, by simp [alu, e]⟩

/-- The ALU raises nothing of its own but DivisionByZero, for DIV with a zero divisor (R127). -/
theorem aluResult_error {op : AluOp} {va vb : Byte} {f : Fault} (h : aluResult op va vb = .error f) :
    op = .div ∧ vb = 0#8 ∧ f = .divisionByZero := by
  cases op <;> simp only [aluResult, reduceCtorEq] at h
  split at h
  · exact ⟨rfl, ‹_›, by simpa [eq_comm] using h⟩
  · cases h

/-- PUSH (R142). -/
theorem execPush_cases :
    (256 < s.pc.val + 2 ∧ execPush a s = .next (s.takeFault (.outOfBounds 256))) ∨
    (s.pc.val + 2 ≤ 256 ∧ 8 ≤ a.toNat ∧ execPush a s = .next (s.takeFault (.invalidRegister a))) ∨
    (s.pc.val + 2 ≤ 256 ∧ a.toNat < 8 ∧ s.sp = 0#8 ∧
      execPush a s = .next (s.takeFault (.outOfBounds (-1)))) ∨
    (∃ (p : Pc) (r : RegIx), p.val = s.pc.val + 2 ∧ r.val = a.toNat ∧ 1 ≤ s.sp.toNat ∧
      execPush a s = .next
        { s.setReg 7 (s.sp - 1#8) with
          mem := Memory.set s.mem (s.sp.toNat - 1) (if r = 7 then s.sp - 1#8 else s.reg r)
          pc := p }) := by
  rcases pcAfter_cases s 2 with ⟨p, hp, e⟩ | ⟨h, e⟩
  · rcases regOperand_cases a with ⟨r, hr, e'⟩ | ⟨h', e'⟩
    · by_cases h0 : s.sp = 0#8
      · have hn : s.pushAddress = -1 := by simp [State.pushAddress, h0]
        exact .inr (.inr (.inl ⟨by omega, by omega, h0, by
          simp [execPush, e, e', hn, stackPointer, checkAddress]⟩))
      · have hs : 1 ≤ s.sp.toNat := by
          have : s.sp.toNat ≠ 0 := fun h => h0 (BitVec.eq_of_toNat_eq (by simpa using h))
          omega
        have hlt := s.sp.isLt
        have hn : s.pushAddress = ((s.sp.toNat - 1 : Nat) : Int) := by
          simp only [State.pushAddress]
          omega
        have hv : BitVec.ofNat 8 (s.sp.toNat - 1) = s.sp - 1#8 := by
          apply BitVec.eq_of_toNat_eq
          rw [BitVec.toNat_ofNat, BitVec.toNat_sub]
          simp
          omega
        refine .inr (.inr (.inr ⟨p, r, hp, hr, hs, ?_⟩))
        simp only [execPush, e, e', hn, stackPointer_ofNat (show s.sp.toNat - 1 < 256 by omega), hv,
          except_ok_bind, memWrite_ofNat _ _ (show s.sp.toNat - 1 < 256 by omega), except_pure, finish_ok]
        rfl
    · exact .inr (.inl ⟨by omega, h', by simp [execPush, e, e']⟩)
  · exact .inl ⟨by omega, by simp [execPush, e]⟩

/-- POP (R143). -/
theorem execPop_cases :
    (256 < s.pc.val + 2 ∧ execPop a s = .next (s.takeFault (.outOfBounds 256))) ∨
    (s.pc.val + 2 ≤ 256 ∧ 8 ≤ a.toNat ∧ execPop a s = .next (s.takeFault (.invalidRegister a))) ∨
    (s.pc.val + 2 ≤ 256 ∧ a.toNat < 8 ∧ s.sp = 255#8 ∧
      execPop a s = .next (s.takeFault (.outOfBounds 256))) ∨
    (∃ (p : Pc) (r : RegIx), p.val = s.pc.val + 2 ∧ r.val = a.toNat ∧ s.sp.toNat ≤ 254 ∧
      execPop a s = .next
        { (s.setReg r (Memory.get s.mem s.sp.toNat)).setReg 7 (s.sp + 1#8) with pc := p }) := by
  have hlt := s.sp.isLt
  rcases pcAfter_cases s 2 with ⟨p, hp, e⟩ | ⟨h, e⟩
  · rcases regOperand_cases a with ⟨r, hr, e'⟩ | ⟨h', e'⟩
    · have hn : s.popSp = ((s.sp.toNat + 1 : Nat) : Int) := rfl
      by_cases h0 : s.sp = 255#8
      · have hn' : s.popSp = 256 := by rw [hn, h0]; rfl
        exact .inr (.inr (.inl ⟨by omega, by omega, h0, by
          simp [execPop, e, e', hn', memRead_ofNat _ hlt, stackPointer, checkAddress]⟩))
      · have hs : s.sp.toNat ≤ 254 := by
          have : s.sp.toNat ≠ 255 := fun h => h0 (BitVec.eq_of_toNat_eq (by simpa using h))
          omega
        have hv : BitVec.ofNat 8 (s.sp.toNat + 1) = s.sp + 1#8 := by
          apply BitVec.eq_of_toNat_eq
          rw [BitVec.toNat_ofNat, BitVec.toNat_add]
          simp
        refine .inr (.inr (.inr ⟨p, r, hp, hr, hs, ?_⟩))
        simp only [execPop, e, e', hn, stackPointer_ofNat (show s.sp.toNat + 1 < 256 by omega), hv,
          except_ok_bind, memRead_ofNat _ hlt, except_pure, finish_ok]
        rfl
    · exact .inr (.inl ⟨by omega, h', by simp [execPop, e, e']⟩)
  · exact .inl ⟨by omega, by simp [execPop, e]⟩

end Sys2Proof.Machine
end

