-- ==== Sys2Proof/Laws/PerInstr.lean ====
section
/-! SUPPORT. Families of statements made instruction by instruction: one lemma per constructor of Instr. -/

/-- An encoding begins with its opcode's byte and is as long as that byte's top two bits say (R61, R66). -/
def Sys2Proof.Laws.EncodingLength.Statement (i : Sys2Proof.Instr) : Prop :=
  (Sys2Proof.encode i).head? = some i.opcode.toByte ∧
    (Sys2Proof.encode i).length = Sys2Proof.insnLength i.opcode.toByte

namespace Sys2Proof.Laws.EncodingLength

theorem hlt : Statement .hlt := ⟨rfl, by rw [insnLength_toByte]; rfl⟩
theorem ldi (a imm : Byte) : Statement (.ldi a imm) := ⟨rfl, by rw [insnLength_toByte]; rfl⟩
theorem prn (a : Byte) : Statement (.prn a) := ⟨rfl, by rw [insnLength_toByte]; rfl⟩
theorem add (a b : Byte) : Statement (.add a b) := ⟨rfl, by rw [insnLength_toByte]; rfl⟩
theorem sub (a b : Byte) : Statement (.sub a b) := ⟨rfl, by rw [insnLength_toByte]; rfl⟩
theorem mul (a b : Byte) : Statement (.mul a b) := ⟨rfl, by rw [insnLength_toByte]; rfl⟩
theorem div (a b : Byte) : Statement (.div a b) := ⟨rfl, by rw [insnLength_toByte]; rfl⟩
theorem push (a : Byte) : Statement (.push a) := ⟨rfl, by rw [insnLength_toByte]; rfl⟩
theorem pop (a : Byte) : Statement (.pop a) := ⟨rfl, by rw [insnLength_toByte]; rfl⟩

end Sys2Proof.Laws.EncodingLength
end

