-- ==== Sys2Proof/Laws/Step.lean ====
section
/-! SUPPORT. What a meaning and a step can do, over all instructions: the inversion lemmas of exec and step. -/

namespace Sys2Proof.Machine

/-- The event a completed instruction emits, if any (R30). -/
inductive Emits (i : Instr) (s : State) : List Event → Prop where
  | hlt : i = .hlt → Emits i s [.haltNotice]
  | prn (a : Byte) (r : RegIx) : i = .prn a → r.val = a.toNat → Emits i s [.print (s.reg r)]
  | none : i ≠ .hlt → (∀ a, i ≠ .prn a) → Emits i s []

/-- What a completed instruction has done, field by field. -/
structure Completed (i : Instr) (s t : State) : Prop where
  wellFormed : i.WellFormed
  pc : t.pc.val = s.pc.val + i.opcode.format.length
  status : t.status = if i = .hlt then .halted else s.status
  out : ∃ es, Emits i s es ∧ t.out = s.out ++ es
  mem : t.mem = s.mem ∨ ∃ (a : Byte) (r : RegIx), i = .push a ∧ r.val = a.toNat ∧ 1 ≤ s.sp.toNat ∧
    t.mem = Memory.set s.mem (s.sp.toNat - 1) (if r = 7 then s.sp - 1#8 else s.reg r)
  reg : ∀ r : RegIx, (∀ b ∈ regsWritten i, b.toNat ≠ r.val) → t.reg r = s.reg r

/-- The faults a meaning can take, with their causes (R88 items 3 to 5). -/
inductive Takes (i : Instr) (s : State) : Fault → Prop where
  | past : 256 < s.pc.val + i.opcode.format.length → Takes i s (.outOfBounds 256)
  | register (a : Byte) : s.pc.val + i.opcode.format.length ≤ 256 → a ∈ i.regOperands → 8 ≤ a.toNat →
      Takes i s (.invalidRegister a)
  | divide (a b : Byte) (r : RegIx) : i = .div a b → r.val = b.toNat → s.reg r = 0#8 →
      s.pc.val + 3 ≤ 256 → a.toNat < 8 → Takes i s .divisionByZero
  | push (a : Byte) : i = .push a → s.sp = 0#8 → s.pc.val + 2 ≤ 256 → a.toNat < 8 →
      Takes i s (.outOfBounds (-1))
  | pop (a : Byte) : i = .pop a → s.sp = 255#8 → s.pc.val + 2 ≤ 256 → a.toNat < 8 →
      Takes i s (.outOfBounds 256)

theorem alu_outcome (i : Instr) (op : AluOp) (s : State) (a b : Byte)
    (hr : i.regOperands = [a, b]) (hw : regsWritten i = [a]) (hl : i.opcode.format.length = 3)
    (hh : i ≠ .hlt) (hp : ∀ c, i ≠ .prn c) (hd : op = .div → i = .div a b)
    (he : exec i s = alu op a b s) :
    (∃ t, exec i s = .next t ∧ Completed i s t) ∨
    (∃ f, exec i s = .next (s.takeFault f) ∧ Takes i s f) := by
  rw [he]
  rcases alu_cases s a b op with ⟨h, e⟩ | ⟨h, h', e⟩ | ⟨h, h', h'', e⟩ | ⟨p, ra, rb, h, hra, hrb, ⟨v, _, e⟩ | ⟨f, hf, e⟩⟩
  · exact .inr ⟨_, e, .past (by omega)⟩
  · exact .inr ⟨_, e, .register a (by omega) (by simp [hr]) h'⟩
  · exact .inr ⟨_, e, .register b (by omega) (by simp [hr]) h''⟩
  · refine .inl ⟨_, e, ?_, h.trans (by rw [hl]), (if_neg hh).symm, ⟨[], .none hh hp, by simp⟩, .inl rfl, ?_⟩
    · intro c hc
      rw [hr] at hc
      have ha := ra.isLt
      have hb := rb.isLt
      simp only [List.mem_cons, List.not_mem_nil, or_false] at hc
      rcases hc with rfl | rfl <;> omega
    · intro r hr'
      have : r ≠ ra := by
        rintro rfl
        exact hr' a (by simp [hw]) hra.symm
      exact reg_setReg_other s ra v this
  · obtain ⟨hop, hb, rfl⟩ := aluResult_error hf
    have := ra.isLt
    exact .inr ⟨_, e, .divide a b rb (hd hop) hrb hb (by have := p.isLt; omega) (by omega)⟩

/-- What `exec` answers, for every instruction and state: a completed execution, or a fault it takes. -/
theorem exec_cases (i : Instr) (s : State) :
    (∃ t, exec i s = .next t ∧ Completed i s t) ∨
    (∃ f, exec i s = .next (s.takeFault f) ∧ Takes i s f) := by
  cases i with
  | hlt =>
    rcases execHlt_cases s with ⟨h, e⟩ | ⟨p, h, e⟩
    · exact .inr ⟨_, e, .past h⟩
    · exact .inl ⟨_, e, (fun b hb => by cases hb), h, rfl, ⟨_, .hlt rfl, rfl⟩, .inl rfl, fun r _ => rfl⟩
  | ldi a imm =>
    rcases execLdi_cases s a imm with ⟨h, e⟩ | ⟨h, h', e⟩ | ⟨p, ra, h, hra, e⟩
    · exact .inr ⟨_, e, .past h⟩
    · exact .inr ⟨_, e, .register a h (by simp [Instr.regOperands]) h'⟩
    · refine .inl ⟨_, e, ?_, h, rfl, ⟨[], .none (by simp) (by simp), by simp⟩, .inl rfl, ?_⟩
      · have := ra.isLt
        simp only [Instr.WellFormed, Instr.regOperands, List.mem_cons, List.not_mem_nil, or_false, forall_eq]
        omega
      · intro r hr
        have : r ≠ ra := by
          rintro rfl
          exact hr a (by simp [regsWritten]) hra.symm
        exact reg_setReg_other s ra imm this
  | prn a =>
    rcases execPrn_cases s a with ⟨h, e⟩ | ⟨h, h', e⟩ | ⟨p, ra, h, hra, e⟩
    · exact .inr ⟨_, e, .past h⟩
    · exact .inr ⟨_, e, .register a h (by simp [Instr.regOperands]) h'⟩
    · refine .inl ⟨_, e, ?_, h, rfl, ⟨_, .prn a ra rfl hra, rfl⟩, .inl rfl, fun r _ => rfl⟩
      have := ra.isLt
      simp only [Instr.WellFormed, Instr.regOperands, List.mem_cons, List.not_mem_nil, or_false, forall_eq]
      omega
  | add a b => exact alu_outcome _ .add s a b rfl rfl rfl (by simp) (by simp) (by simp) rfl
  | sub a b => exact alu_outcome _ .sub s a b rfl rfl rfl (by simp) (by simp) (by simp) rfl
  | mul a b => exact alu_outcome _ .mul s a b rfl rfl rfl (by simp) (by simp) (by simp) rfl
  | div a b => exact alu_outcome _ .div s a b rfl rfl rfl (by simp) (by simp) (by simp) rfl
  | push a =>
    rcases execPush_cases s a with ⟨h, e⟩ | ⟨h, h', e⟩ | ⟨h, h', h0, e⟩ | ⟨p, ra, h, hra, hs, e⟩
    · exact .inr ⟨_, e, .past h⟩
    · exact .inr ⟨_, e, .register a h (by simp [Instr.regOperands]) h'⟩
    · exact .inr ⟨_, e, .push a rfl h0 h h'⟩
    · refine .inl ⟨_, e, ?_, h, rfl, ⟨[], .none (by simp) (by simp), by simp⟩,
        .inr ⟨a, ra, rfl, hra, hs, rfl⟩, ?_⟩
      · have := ra.isLt
        simp only [Instr.WellFormed, Instr.regOperands, List.mem_cons, List.not_mem_nil, or_false, forall_eq]
        omega
      · intro r hr
        have : r ≠ 7 := by
          rintro rfl
          exact hr 7#8 (by simp [regsWritten]) rfl
        exact reg_setReg_other s 7 _ this
  | pop a =>
    rcases execPop_cases s a with ⟨h, e⟩ | ⟨h, h', e⟩ | ⟨h, h', h0, e⟩ | ⟨p, ra, h, hra, hs, e⟩
    · exact .inr ⟨_, e, .past h⟩
    · exact .inr ⟨_, e, .register a h (by simp [Instr.regOperands]) h'⟩
    · exact .inr ⟨_, e, .pop a rfl h0 h h'⟩
    · refine .inl ⟨_, e, ?_, h, rfl, ⟨[], .none (by simp) (by simp), by simp⟩, .inl rfl, ?_⟩
      · have := ra.isLt
        simp only [Instr.WellFormed, Instr.regOperands, List.mem_cons, List.not_mem_nil, or_false, forall_eq]
        omega
      · intro r hr
        have h7 : r ≠ 7 := by
          rintro rfl
          exact hr 7#8 (by simp [regsWritten]) rfl
        have ha : r ≠ ra := by
          rintro rfl
          exact hr a (by simp [regsWritten]) hra.symm
        exact (reg_setReg_other _ 7 _ h7).trans (reg_setReg_other s ra _ ha)

@[simp] theorem build_opcode (op : Opcode) (a b : Byte) : (op.build a b).opcode = op := by
  cases op <;> rfl

/-- What a running machine's step does: it executes the instruction at the pc, whose bytes all lie in
memory, or takes one of the faults of R88 items 1 to 3. -/
theorem step_running_cases {s : State} (hs : s.status = .running) :
    (∃ op : Opcode, s.pc.val + op.format.length ≤ 256 ∧ s.opcodeAt s.pc.val = op.toByte ∧
      step s = exec (op.build (s.opcodeAt (s.pc.val + 1)) (s.opcodeAt (s.pc.val + 2))) s) ∨
    (s.pc.val = 256 ∧ step s = .next (s.takeFault (.outOfBounds 256))) ∨
    (s.pc.val < 256 ∧ Opcode.ofByte (s.opcodeAt s.pc.val) = none ∧
      step s = .next (s.takeFault (.unknownOpcode (s.opcodeAt s.pc.val)))) ∨
    (∃ op : Opcode, s.pc.val < 256 ∧ s.opcodeAt s.pc.val = op.toByte ∧
      256 < s.pc.val + op.format.length ∧ step s = .next (s.takeFault (.outOfBounds 256))) := by
  rcases fetch_cases s with ⟨h, e⟩ | ⟨h, h', e⟩ | ⟨op, h, hb, ⟨h', e⟩ | ⟨h', e⟩⟩
  · exact .inr (.inl ⟨by have := s.pc.isLt; omega, by simp [step, hs, e]⟩)
  · exact .inr (.inr (.inl ⟨h, h', by simp [step, hs, e, State.opcodeAt]⟩))
  · exact .inr (.inr (.inr ⟨op, h, hb, h', by simp [step, hs, e]⟩))
  · exact .inl ⟨op, h', hb, by simp [step, hs, e, State.opcodeAt]⟩

/-- The faults a running machine's step can take, with their causes (R88, R160). -/
inductive StepTakes (s : State) : Fault → Prop where
  | fetch : s.pc.val = 256 → StepTakes s (.outOfBounds 256)
  | opcode : s.pc.val < 256 → Opcode.ofByte (s.opcodeAt s.pc.val) = none →
      StepTakes s (.unknownOpcode (s.opcodeAt s.pc.val))
  | instr (op : Opcode) (f : Fault) : s.pc.val < 256 → s.opcodeAt s.pc.val = op.toByte →
      Takes (op.build (s.opcodeAt (s.pc.val + 1)) (s.opcodeAt (s.pc.val + 2))) s f → StepTakes s f

/-- What a running machine's step answers: the instruction at the pc completed, or a fault taken. -/
theorem step_cases {s t : State} (hs : s.status = .running) (e : step s = .next t) :
    (∃ op : Opcode, s.pc.val < 256 ∧ s.opcodeAt s.pc.val = op.toByte ∧
      Completed (op.build (s.opcodeAt (s.pc.val + 1)) (s.opcodeAt (s.pc.val + 2))) s t) ∨
    (∃ f, t = s.takeFault f ∧ StepTakes s f) := by
  rcases step_running_cases hs with ⟨op, h, hb, e'⟩ | ⟨h, e'⟩ | ⟨h, h', e'⟩ | ⟨op, h, hb, h', e'⟩
  · have hlt : s.pc.val < 256 := by
      cases op <;> simp only [Opcode.format, Format.length] at h <;> omega
    rcases exec_cases (op.build (s.opcodeAt (s.pc.val + 1)) (s.opcodeAt (s.pc.val + 2))) s with
      ⟨u, e2, c⟩ | ⟨f, e2, c⟩
    · rw [e, e2] at e'
      cases e'
      exact .inl ⟨op, hlt, hb, c⟩
    · rw [e, e2] at e'
      cases e'
      exact .inr ⟨f, rfl, .instr op f hlt hb c⟩
  · rw [e] at e'
    cases e'
    exact .inr ⟨_, rfl, .fetch h⟩
  · rw [e] at e'
    cases e'
    exact .inr ⟨_, rfl, .opcode h h'⟩
  · rw [e] at e'
    cases e'
    exact .inr ⟨_, rfl, .instr op _ h hb (.past (by simpa using h'))⟩

/-- A completed instruction has not faulted. -/
theorem Completed.notFaulted {i : Instr} {s t : State} (hs : s.status = .running) (c : Completed i s t) :
    t.NotFaulted := by
  intro f
  rw [c.status]
  split <;> simp [hs]

theorem step_stopped {s : State} (hs : s.status ≠ .running) : step s = .next s := by
  cases h : s.status with
  | running => exact absurd h hs
  | halted => simp [step, h]
  | faulted f => simp [step, h]

theorem runFor_stopped {s : State} (hs : s.status ≠ .running) (k : Nat) : runFor k s = .next s := by
  cases k with
  | zero => rfl
  | succ k => cases h : s.status <;> simp_all [runFor]

end Sys2Proof.Machine
end

