-- ==== Sys2Proof/Tests/Slice0.lean ====
section
/-! SUPPORT. The model's own tests: expected results from the spec's worked examples and tables
(95_test_vectors.md unless a rule is named), the WellFormed smoke tests, and the witnesses of the
obligations' hypotheses. -/

namespace Sys2Proof.Tests

open Sys2Proof.Machine

/-- The state a step answered. -/
def after (o : Host.Outcome State Fault Refusal) : Option State :=
  match o with
  | .next t => some t
  | .fault _ => none
  | .refused _ => none

/-- A running state: an image at an address, the pc, and the registers. -/
def st (base : Nat) (image : List Byte) (pc : Pc) (x : RegFile) : State :=
  ⟨Memory.storeBytes [] base image, x, pc, .running, []⟩

/-- r0 to r7. -/
def regs (a b c d e f g h : Byte) : RegFile := #v[a, b, c, d, e, f, g, h]

/-! ## Well-formedness: one ill-formed term for each check -/

theorem test_wellFormed_ok : Instr.WellFormed (.ldi 7#8 255#8) ∧ Instr.WellFormed (.div 7#8 0#8) ∧
    Instr.WellFormed .hlt := by decide
theorem test_illFormed_ldi_a : ¬Instr.WellFormed (.ldi 8#8 5#8) := by decide
theorem test_illFormed_prn_a : ¬Instr.WellFormed (.prn 8#8) := by decide
theorem test_illFormed_add_a : ¬Instr.WellFormed (.add 9#8 0#8) := by decide
theorem test_illFormed_add_b : ¬Instr.WellFormed (.add 0#8 8#8) := by decide
theorem test_illFormed_sub_a : ¬Instr.WellFormed (.sub 8#8 0#8) := by decide
theorem test_illFormed_sub_b : ¬Instr.WellFormed (.sub 0#8 8#8) := by decide
theorem test_illFormed_mul_a : ¬Instr.WellFormed (.mul 255#8 0#8) := by decide
theorem test_illFormed_mul_b : ¬Instr.WellFormed (.mul 0#8 255#8) := by decide
theorem test_illFormed_div_a : ¬Instr.WellFormed (.div 8#8 1#8) := by decide
theorem test_illFormed_div_b : ¬Instr.WellFormed (.div 0#8 8#8) := by decide
theorem test_illFormed_push_a : ¬Instr.WellFormed (.push 8#8) := by decide
theorem test_illFormed_pop_a : ¬Instr.WellFormed (.pop 8#8) := by decide

/-! ## Decoding: words written bit by bit from the encodings of R64 -/

theorem test_decode_hlt : decode [0b00000001#8, 0x47#8] = .ok (.hlt, [0x47#8]) := by rfl
theorem test_decode_ldi : decode [0b10000010#8, 0b00000101#8, 0b10101011#8] = .ok (.ldi 5#8 0xAB#8, []) := by rfl
theorem test_decode_prn : decode [0b01000111#8, 0b00000011#8] = .ok (.prn 3#8, []) := by rfl
theorem test_decode_add : decode [0b10100000#8, 0b00000010#8, 0b00000011#8] = .ok (.add 2#8 3#8, []) := by rfl
theorem test_decode_sub : decode [0b10100001#8, 0b00000100#8, 0b00000010#8] = .ok (.sub 4#8 2#8, []) := by rfl
theorem test_decode_mul : decode [0b10100010#8, 0b00000000#8, 0b00000001#8] = .ok (.mul 0#8 1#8, []) := by rfl
theorem test_decode_div : decode [0b10100011#8, 0b00000010#8, 0b00000100#8] = .ok (.div 2#8 4#8, []) := by rfl
theorem test_decode_push : decode [0b01000101#8, 0b00000111#8] = .ok (.push 7#8, []) := by rfl
theorem test_decode_pop : decode [0b01000110#8, 0b00000001#8] = .ok (.pop 1#8, []) := by rfl

/-- V7, T1 to T4: each with its own byte as info. -/
theorem test_decode_rejects :
    [0xFF#8, 0x00#8, 0x02#8, 0x41#8, 0xA4#8, 0xC1#8].map (fun b => decode [b, 0x00#8, 0x01#8]) =
    [0xFF#8, 0x00#8, 0x02#8, 0x41#8, 0xA4#8, 0xC1#8].map (fun b => .error (.unknownOpcode b)) := by rfl

theorem test_decode_truncated : decode [0x82#8] = .error (.endOfBytes 1) ∧
    decode [0x82#8, 0x00#8] = .error (.endOfBytes 2) ∧ decode [] = .error (.endOfBytes 0) := ⟨rfl, rfl, rfl⟩

/-- The rows of the opcode map do not overlap, and every mask takes in all eight bits (R64, R65). -/
theorem test_opcodeTable_disjoint :
    opcodeTable.Pairwise (fun r q => r.pattern &&& q.mask ≠ q.pattern) ∧
    ∀ r ∈ opcodeTable, r.mask = 0xFF#8 := by decide

/-- The table numbers a word's later bytes upwards: 0x080082 is LDI r0, 8. -/
theorem test_tableWord : decodeTableWord 24 0x080082 = some (.ldi 0#8 8#8) ∧
    decodeTableWord 8 0x82 = some (.ldi 0#8 0#8) ∧ decodeTableWord 16 0x0347 = some (.prn 3#8) ∧
    decodeTableWord 8 0x01 = some .hlt ∧ decodeTableWord 8 0x00 = none := by decide

/-! ## Single steps -/

/-- T5: HLT at 255 completes, pc 256. -/
theorem test_hlt_at_255 : (after (step (st 255 [0x01#8] 255 (regs 0 0 0 0 0 0 0 0xF4)))).map
    (fun t => (t.status, t.pc.val, t.out)) = some (.halted, 256, [.haltNotice]) := by decide
/-- T6: HLT at 254 reads no byte after it. -/
theorem test_hlt_at_254 : (after (step (st 254 [0x01#8] 254 (regs 0 0 0 0 0 0 0 0xF4)))).map
    (fun t => (t.status, t.pc.val)) = some (.halted, 255) := by decide
/-- L1. -/
theorem test_ldi_255 : (after (step (st 0 [0x82#8, 0x00#8, 0xFF#8] 0 (regs 0 0 0 0 0 0 0 0xF4)))).map
    (fun t => (t.reg 0, t.pc.val)) = some (255#8, 3) := by decide
/-- L4: the byte 8 is no register. -/
theorem test_ldi_invalid : (after (step (st 0 [0x82#8, 0x08#8, 0x05#8] 0 (regs 0 0 0 0 0 0 0 0xF4)))).map
    (fun t => (t.status, t.pc.val)) = some (.faulted (.invalidRegister 8#8), 0) := by decide
/-- T8: PRN at 254 completes, and the next step faults with the output kept. -/
theorem test_prn_at_254 : (after (runFor 2 (st 254 [0x47#8, 0x00#8] 254 (regs 9 0 0 0 0 0 0 0xF4)))).map
    (fun t => (t.status, t.pc.val, t.out)) = some (.faulted (.outOfBounds 256), 256, [.print 9#8]) := by
  decide
/-- T7. -/
theorem test_prn_at_255 : (after (step (st 255 [0x47#8] 255 (regs 9 0 0 0 0 0 0 0xF4)))).map
    (fun t => (t.status, t.pc.val, t.out)) = some (.faulted (.outOfBounds 256), 255, []) := by decide
/-- A1, A4. -/
theorem test_add_wraps : (after (exec (.add 0 1) (st 0 [] 0 (regs 200 100 0 0 0 0 0 0xF4)))).map
    (fun t => t.reg 0) = some 44#8 := by decide
theorem test_add_doubles : (after (exec (.add 0 0) (st 0 [] 0 (regs 200 100 0 0 0 0 0 0xF4)))).map
    (fun t => t.reg 0) = some 144#8 := by decide
/-- A5, A26. -/
theorem test_sub_borrows : (after (exec (.sub 0 1) (st 0 [] 0 (regs 3 5 0 0 0 0 0 0xF4)))).map
    (fun t => (t.reg 0, t.reg 1)) = some (254#8, 5#8) := by decide
theorem test_sub_sp : (after (exec (.sub 7 1) (st 0 [] 0 (regs 3 0x10 0 0 0 0 0 0xF4)))).map
    (fun t => t.reg 7) = some 0xE4#8 := by decide
/-- A10, A12. -/
theorem test_mul_low_byte : (after (exec (.mul 0 1) (st 0 [] 0 (regs 255 255 0 0 0 0 0 0xF4)))).map
    (fun t => t.reg 0) = some 1#8 := by decide
theorem test_mul_wraps : (after (exec (.mul 0 1) (st 0 [] 0 (regs 3 86 0 0 0 0 0 0xF4)))).map
    (fun t => t.reg 0) = some 2#8 := by decide
/-- A14, A19. -/
theorem test_div_truncates : (after (exec (.div 0 1) (st 0 [] 0 (regs 7 2 0 0 0 0 0 0xF4)))).map
    (fun t => t.reg 0) = some 3#8 := by decide
theorem test_div_by_zero : (after (exec (.div 0 1) (st 0 [] 0 (regs 9 0 0 0 0 0 0 0xF4)))).map
    (fun t => (t.status, t.reg 0, t.pc.val)) = some (.faulted .divisionByZero, 9#8, 0) := by decide
/-- S4, S3. -/
theorem test_push_sp : (after (exec (.push 7) (st 0 [] 0 (regs 5 0 0 0 0 0 0 0xF4)))).map
    (fun t => (Memory.get t.mem 0xF3, t.reg 7, t.pc.val)) = some (0xF3#8, 0xF3#8, 2) := by decide
theorem test_push_at_zero : (after (exec (.push 0) (st 0 [] 0 (regs 5 0 0 0 0 0 0 0)))).map
    (fun t => (t.status, t.reg 7, t.mem)) = some (.faulted (.outOfBounds (-1)), 0#8, []) := by decide
/-- S6, S10. -/
theorem test_pop : (after (exec (.pop 1) (st 0xF3 [5#8] 0 (regs 0 0 0 0 0 0 0 0xF3)))).map
    (fun t => (t.reg 1, t.reg 7)) = some (5#8, 0xF4#8) := by decide
theorem test_pop_sp : (after (exec (.pop 7) (st 0xF3 [0x20#8] 0 (regs 0 0 0 0 0 0 0 0xF3)))).map
    (fun t => t.reg 7) = some 0xF4#8 := by decide

/-- T13, A24, A25, S5: the precedence of R88. -/
theorem test_priority :
    (after (step (st 255 [0xC1#8] 255 (regs 0 0 0 0 0 0 0 0)))).map State.status =
      some (.faulted (.unknownOpcode 0xC1#8)) ∧
    (after (exec (.div 9 8) (st 0 [] 0 (regs 0 0 0 0 0 0 0 0)))).map State.status =
      some (.faulted (.invalidRegister 9#8)) ∧
    (after (exec (.div 8 1) (st 0 [] 0 (regs 0 0 0 0 0 0 0 0)))).map State.status =
      some (.faulted (.invalidRegister 8#8)) ∧
    (after (exec (.push 8) (st 0 [] 0 (regs 0 0 0 0 0 0 0 0)))).map State.status =
      some (.faulted (.invalidRegister 8#8)) := by decide

/-- Z1, at the draw of log entry 1. -/
theorem test_reset : State.reset.reg 7 = 0xF4#8 ∧ State.reset.pc.val = 0 ∧ State.reset.status = .running ∧
    Memory.wf State.reset.mem := by decide

/-- V6, Z4: an image of 257 bytes is rejected, with the memory left. -/
theorem test_load_too_large : (State.reset.load (List.replicate 257 1#8)).status =
    .faulted (.programTooLarge 257) ∧ (State.reset.load (List.replicate 257 1#8)).mem = [] := by
  decide +kernel

/-- The host's question: a placed word runs as the first instruction after reset. -/
theorem test_withFetchWord : (after (step (State.reset.withFetchWord 24 0x080082))).map
    (fun t => (t.reg 0, t.pc.val)) = some (8#8, 3) := by decide

/-- V2's text (30_encoding.md R68) assembles to V2's image. -/
theorem test_assemble : (Asm.assemble? ['L','D','I',' ','r','0',',',' ','9',';',' ','L','D','I',' ','r','1',',',' ',
    '3',';',' ','M','U','L',' ','r','0',' ','r','1',';',' ','P','R','N',' ','r','0',';',' ','H','L','T']).map Asm.image =
    some [0x82#8, 0x00#8, 0x09#8, 0x82#8, 0x01#8, 0x03#8, 0xA2#8, 0x00#8, 0x01#8, 0x47#8, 0x00#8, 0x01#8] := by
  decide

/-! ## Witnesses: states and operands that meet the obligations' hypotheses, clause by clause -/

/-- A state for the register forms, the pc at 253, the last place a three-byte instruction fits. -/
def w253 : State := st 0 [] 253 (regs 4 6 0 0 0 0 0 0xF4)

theorem witness_LoadInstallsTheImageOrRejectsIt :
    (List.replicate 256 1#8 : List Byte).length ≤ 256 ∧ 256 < (List.replicate 257 1#8 : List Byte).length := by
  decide +kernel

theorem witness_LoadComesAtMostOnceBeforeTheFirstStep :
    (∀ d ∈ [Command.load [1#8], .step], ∀ init, d ≠ .reset init) ∧
    ∃ q', Session.applyAll [.load [1#8], .step] ⟨State.reset, true⟩ = .next q' :=
  ⟨by simp, _, rfl⟩

theorem witness_EncodeInvertsDecode : decode [0x45#8, 0x03#8, 0x46#8] = .ok (.push 3#8, [0x46#8]) := by rfl

theorem witness_EveryOtherOpcodeByteIsIllegal : State.reset.status = .running ∧ State.reset.pc.val < 256 ∧
    Opcode.ofByte (State.reset.opcodeAt State.reset.pc.val) = none ∧ 0xC0 ≤ (0xC0#8).toNat := by decide

theorem witness_LengthIsTheTopTwoBitsPlusOne : (0xC0#8).toNat / 64 = 3 := by decide

theorem witness_CanonicalTextAssemblesBack : Instr.WellFormed (.add 7#8 0#8) := by decide

/-- An instruction that ends at address 255. -/
def wLast : State := st 253 [0x82#8, 0x07#8, 0x10#8] 253 (regs 0 0 0 0 0 0 0 0xF4)

theorem witness_StepRunsDecodedInstruction : wLast.status = .running ∧
    decode wLast.window = .ok (.ldi 7#8 0x10#8, []) := ⟨rfl, rfl⟩

theorem witness_StepRunsEncodedInstruction : wLast.status = .running ∧
    wLast.pc.val + (encode (.ldi 7#8 0x10#8)).length ≤ 256 ∧
    ∀ (k : Nat) (hk : k < (encode (.ldi 7#8 0x10#8)).length),
      Memory.get wLast.mem (wLast.pc.val + k) = (encode (.ldi 7#8 0x10#8))[k] :=
  ⟨rfl, by decide, by decide⟩

theorem witness_PlacedWordIsWhatTheNextStepRuns : w253.pc.val + 3 ≤ 256 ∧
    decodeTableWord 24 0x010082 = some (.ldi 0#8 1#8) := by decide

theorem witness_StoppedMachineStaysAsItIs : (State.reset.halt).status = .halted ∧
    ∃ f, (State.reset.takeFault .divisionByZero).status = .faulted f := ⟨rfl, _, rfl⟩

theorem witness_CompletedStepAdvancesThePc :
    (∃ t, step wLast = .next t ∧ t.NotFaulted) ∧
    ∃ t f, step State.reset = .next t ∧ t.status = .faulted f :=
  ⟨⟨_, rfl, fun _ h => nomatch h⟩, _, _, rfl, rfl⟩

/-- R88's items, each on a running state: 1, the fetch at 256; 2, an illegal byte. -/
theorem witness_priority_fetch :
    (st 0 [] 256 (regs 0 0 0 0 0 0 0 0)).status = .running ∧ (st 0 [] 256 (regs 0 0 0 0 0 0 0 0)).pc.val = 256 ∧
    State.reset.status = .running ∧ State.reset.pc.val < 256 ∧
    Opcode.ofByte (State.reset.opcodeAt State.reset.pc.val) = none := by decide

/-- A running state at `pc` with an instruction's first bytes there, and what items 3 to 5 ask of it. -/
def meets (s : State) (op : Opcode) : Bool :=
  s.status == .running && s.pc.val < 256 && Opcode.ofByte (s.opcodeAt s.pc.val) == some op

/-- 3: LDI at 255 (operand A at 256) and at 254 (operand B at 256). -/
theorem witness_priority_operand_bytes :
    meets (st 255 [0x82#8] 255 (regs 0 0 0 0 0 0 0 0)) .ldi = true ∧ 2 ≤ insnLength 0x82#8 ∧
    256 ≤ (255 : Pc).val + 1 ∧
    meets (st 254 [0x82#8] 254 (regs 0 0 0 0 0 0 0 0)) .ldi = true ∧ 3 ≤ insnLength 0x82#8 ∧
    (254 : Pc).val + 1 < 256 ∧ 256 ≤ (254 : Pc).val + 2 := by decide

/-- 4: DIV at 253 with A = 8, and with A = 7 and B = 8. -/
theorem witness_priority_registers :
    meets (st 253 [0xA3#8, 0x08#8, 0x07#8] 253 (regs 0 0 0 0 0 0 0 0)) .div = true ∧
    (253 : Pc).val + insnLength 0xA3#8 ≤ 256 ∧ isAlu .div = true ∧ (Opcode.div ≠ .hlt) ∧
    8 ≤ ((st 253 [0xA3#8, 0x08#8, 0x07#8] 253 (regs 0 0 0 0 0 0 0 0)).opcodeAt 254).toNat ∧
    meets (st 253 [0xA3#8, 0x07#8, 0x08#8] 253 (regs 0 0 0 0 0 0 0 0)) .div = true ∧
    ((st 253 [0xA3#8, 0x07#8, 0x08#8] 253 (regs 0 0 0 0 0 0 0 0)).opcodeAt 254).toNat < 8 ∧
    8 ≤ ((st 253 [0xA3#8, 0x07#8, 0x08#8] 253 (regs 0 0 0 0 0 0 0 0)).opcodeAt 255).toNat := by decide

/-- 5: DIV r0, r7 with r7 = 0; PUSH r0 with SP 0; POP r0 with SP 255. -/
theorem witness_priority_own_faults :
    meets (st 253 [0xA3#8, 0x00#8, 0x07#8] 253 (regs 9 0 0 0 0 0 0 0)) .div = true ∧
    Instr.WellFormed (Opcode.build .div 0#8 7#8) ∧
    (∀ r : RegIx, r.val = (7#8).toNat →
      (st 253 [0xA3#8, 0x00#8, 0x07#8] 253 (regs 9 0 0 0 0 0 0 0)).reg r = 0#8) ∧
    meets (st 254 [0x45#8] 254 (regs 9 0 0 0 0 0 0 0)) .push = true ∧
    (st 254 [0x45#8] 254 (regs 9 0 0 0 0 0 0 0)).sp = 0#8 ∧
    meets (st 254 [0x46#8] 254 (regs 9 0 0 0 0 0 0 255)) .pop = true ∧
    (st 254 [0x46#8] 254 (regs 9 0 0 0 0 0 0 255)).sp = 255#8 := by decide

/-- No cause: DIV r0, r0 with r0 = 9; PUSH with SP 1; POP with SP 254. -/
theorem witness_FaultsOfAStepHaveTheirPriority :
    meets (st 253 [0xA3#8] 253 (regs 9 0 0 0 0 0 0 0)) .div = true ∧
    Instr.WellFormed (Opcode.build .div 0#8 0#8) ∧
    (∀ r : RegIx, r.val = (0#8).toNat → (st 253 [0xA3#8] 253 (regs 9 0 0 0 0 0 0 0)).reg r ≠ 0#8) ∧
    meets (st 254 [0x45#8] 254 (regs 9 0 0 0 0 0 0 1)) .push = true ∧
    (st 254 [0x45#8] 254 (regs 9 0 0 0 0 0 0 1)).sp ≠ 0#8 ∧
    meets (st 254 [0x46#8] 254 (regs 9 0 0 0 0 0 0 254)) .pop = true ∧
    (st 254 [0x46#8] 254 (regs 9 0 0 0 0 0 0 254)).sp ≠ 255#8 := by decide

theorem witness_FaultsArePreciseAndPermanent : State.reset.status = .running ∧
    ∃ t, step State.reset = .next t ∧ t.status = .faulted (.unknownOpcode 0#8) := ⟨rfl, _, rfl, rfl⟩

/-- Every fault a step can take is taken somewhere. -/
theorem witness_FaultsHaveTheirCauses :
    (after (step (st 0 [] 256 (regs 0 0 0 0 0 0 0 0)))).map State.status = some (.faulted (.outOfBounds 256)) ∧
    (after (step (st 254 [0x82#8] 254 (regs 0 0 0 0 0 0 0 0)))).map State.status = some (.faulted (.outOfBounds 256)) ∧
    (after (step (st 0 [0x45#8] 0 (regs 0 0 0 0 0 0 0 0)))).map State.status = some (.faulted (.outOfBounds (-1))) ∧
    (after (step (st 0 [0x46#8] 0 (regs 0 0 0 0 0 0 0 255)))).map State.status = some (.faulted (.outOfBounds 256)) ∧
    (after (step (st 0 [0xA0#8, 0x00#8, 0x08#8] 0 (regs 0 0 0 0 0 0 0 0)))).map State.status =
      some (.faulted (.invalidRegister 8#8)) ∧
    (after (step (st 0 [0xA3#8] 0 (regs 0 0 0 0 0 0 0 0)))).map State.status = some (.faulted .divisionByZero) ∧
    (after (step (st 0 [0xC1#8] 0 (regs 0 0 0 0 0 0 0 0)))).map State.status =
      some (.faulted (.unknownOpcode 0xC1#8)) := by decide

/-- A step from Running to Halted, one that stays Running, one that becomes Faulted. -/
theorem witness_OnlyHltHalts :
    (after (step (st 255 [0x01#8] 255 (regs 0 0 0 0 0 0 0 0)))).map State.status = some .halted ∧
    (after (step wLast)).map State.status = some .running ∧
    (after (step State.reset)).map State.status = some (.faulted (.unknownOpcode 0#8)) := by decide

/-- PUSH r0 at 0, with SP = 3: the store lands on address 2, where the next instruction is fetched. -/
def wPush : State := st 0 [0x45#8, 0x00#8] 0 (regs 1 0 0 0 0 0 0 3)

theorem witness_OnlyPushWritesMemory : wPush.status = .running ∧
    (after (step wPush)).map (fun t => Memory.get t.mem 2) = some 1#8 ∧ Memory.get wPush.mem 2 ≠ 1#8 := by
  decide

/-- A PUSH state meets the hypotheses when it is running, PUSH's opcode is at its pc, and its step completes. -/
def pushes (s : State) : Bool :=
  s.status == .running && s.opcodeAt s.pc.val == 0x45#8 && (after (step s)).map State.status == some .running

/-- The store is the next opcode byte: the stored 0x01 is fetched as HLT and executed (P4). -/
theorem witness_PushStoreIsSeenByTheNextFetch : pushes wPush = true ∧
    (0 : RegIx).val = (wPush.opcodeAt (wPush.pc.val + 1)).toNat ∧
    (after (step wPush)).map (fun t => (t.pc.val, (after (step t)).map State.status)) =
      some (2, some .halted) := by decide

/-- The store is the next operand byte: PUSH r1 with SP = 4 stores 0x05 at 3, after PRN's opcode at 2. -/
theorem witness_push_seen_operand : pushes (st 0 [0x45#8, 0x01#8, 0x47#8] 0 (regs 0 5 0 0 0 7 0 4)) = true ∧
    (1 : RegIx).val = ((st 0 [0x45#8, 0x01#8, 0x47#8] 0 (regs 0 5 0 0 0 7 0 4)).opcodeAt 1).toNat ∧
    (after (step (st 0 [0x45#8, 0x01#8, 0x47#8] 0 (regs 0 5 0 0 0 7 0 4)))).map
      (fun t => (after (step t)).map State.out) = some (some [.print 7#8]) := by decide

/-- The other clauses: the stored byte is no opcode; it is PRN's at 255; the next pc is 256. -/
theorem witness_push_seen_faults :
    pushes (st 0 [0x45#8, 0x00#8] 0 (regs 0xC1 0 0 0 0 0 0 3)) = true ∧
    (after (step (st 0 [0x45#8, 0x00#8] 0 (regs 0xC1 0 0 0 0 0 0 3)))).map
      (fun t => (after (step t)).map State.status) = some (some (.faulted (.unknownOpcode 0xC1#8))) ∧
    pushes (st 253 [0x45#8, 0x07#8, 0x47#8] 253 (regs 0 0 0 0 0 0 0 3)) = true ∧
    (after (step (st 253 [0x45#8, 0x07#8, 0x47#8] 253 (regs 0 0 0 0 0 0 0 3)))).map
      (fun t => (t.pc.val, (after (step t)).map State.status)) =
        some (255, some (.faulted (.outOfBounds 256))) ∧
    pushes (st 254 [0x45#8, 0x00#8] 254 (regs 0 0 0 0 0 0 0 3)) = true ∧
    (after (step (st 254 [0x45#8, 0x00#8] 254 (regs 0 0 0 0 0 0 0 3)))).map (fun t => t.pc.val) = some 256 := by
  decide

/-- PRN, HLT, another instruction, and a fault. -/
theorem witness_StepEmitsAtMostItsEvent :
    (after (step (st 0 [0x47#8, 0x07#8] 0 (regs 0 0 0 0 0 0 0 0xF4)))).map State.out = some [.print 0xF4#8] ∧
    (after (step (st 0 [0x01#8] 0 (regs 0 0 0 0 0 0 0 0xF4)))).map State.out = some [.haltNotice] ∧
    (after (step wLast)).map State.out = some [] ∧
    (after (step (st 0 [0x47#8, 0x08#8] 0 (regs 0 0 0 0 0 0 0 0xF4)))).map (fun t => (t.status, t.out)) =
      some (.faulted (.invalidRegister 8#8), []) := by decide

theorem witness_HltHaltsAndAdvances : (255 : Pc).val + 1 ≤ 256 := by decide

/-- The three-byte forms: valid operands at the last pc, each out-of-bounds pc, each invalid operand. -/
theorem witness_threeByteForms : (7#8).toNat < 8 ∧ w253.pc.val + 3 ≤ 256 ∧
    (st 0 [] 255 (regs 0 0 0 0 0 0 0 0)).pc.val = 255 ∧ (st 0 [] 254 (regs 0 0 0 0 0 0 0 0)).pc.val = 254 ∧
    8 ≤ (8#8).toNat ∧ w253.reg ⟨(1#8).toNat, by decide⟩ ≠ 0#8 ∧ w253.reg ⟨(6#8).toNat, by decide⟩ = 0#8 := by
  decide

/-- PRN, PUSH and POP: the last pc, the pc past it, and the stack pointer's bounds. -/
theorem witness_twoByteForms : (254 : Pc).val + 2 ≤ 256 ∧ (255 : Pc).val = 255 ∧ 8 ≤ (8#8).toNat ∧
    1 ≤ (st 0 [] 0 (regs 0 0 0 0 0 0 0 1)).sp.toNat ∧ (st 0 [] 0 (regs 0 0 0 0 0 0 0 0)).sp = 0#8 ∧
    (st 0 [] 0 (regs 0 0 0 0 0 0 0 254)).sp.toNat ≤ 254 ∧ (st 0 [] 0 (regs 0 0 0 0 0 0 0 255)).sp = 255#8 := by
  decide

theorem witness_AluOnOneRegisterTwice : (7#8).toNat < 8 ∧ w253.pc.val + 3 ≤ 256 ∧
    w253.reg ⟨(0#8).toNat, by decide⟩ ≠ 0#8 ∧ w253.reg ⟨(2#8).toNat, by decide⟩ = 0#8 := by decide

/-- The frames' instructions answer a next state: all but PRN of the byte 8 complete. -/
theorem witness_frames :
    (∃ t, exec (.ldi 0 1) w253 = .next t) ∧ (∃ t, exec (.div 0 1) w253 = .next t) ∧
    (∃ t, exec .hlt w253 = .next t) ∧ (∃ t, exec (.prn 8) w253 = .next t) ∧
    (∃ t, exec (.push 7) w253 = .next t) ∧ (∃ t, exec (.pop 7) w253 = .next t) ∧ w253.pushAddress = 0xF3 ∧
    (Instr.div 0#8 1#8 ∈ [Instr.ldi 0#8 1#8, .add 0#8 1#8, .sub 0#8 1#8, .mul 0#8 1#8, .div 0#8 1#8]) ∧
    (Instr.prn 8#8 ∈ [Instr.hlt, .prn 8#8]) :=
  ⟨⟨_, rfl⟩, ⟨_, rfl⟩, ⟨_, rfl⟩, ⟨_, rfl⟩, ⟨_, rfl⟩, ⟨_, rfl⟩, by decide, by decide, by decide⟩

/-- POP r1 does not read r1, and writes it. -/
theorem witness_UnreadRegistersDoNotMatter : (∀ b ∈ regsRead (.pop 1#8), b.toNat ≠ (1 : RegIx).val) ∧
    (∃ b ∈ regsWritten (.pop 1#8), b.toNat = (1 : RegIx).val) ∧
    (after (exec (.pop 1#8) w253)).map State.status = some .running ∧
    (after (exec (.pop 1#8) (w253.setReg 1 0x55#8))).map State.status = some .running := by decide

theorem witness_PushThenPopRestoresTheRegisters : (7#8).toNat < 8 ∧ (252 : Pc).val + 4 ≤ 256 ∧
    1 ≤ (st 0 [] 252 (regs 0 0 0 0 0 0 0 1)).sp.toNat := by decide

/-- V8: PUSH r0, ADD r0 r1, POP r2. -/
theorem witness_BalancedStackSequenceRestoresSp :
    (∀ i ∈ [Instr.push 0#8, .add 0#8 1#8, .pop 2#8], StackOrAlu i) ∧
    [Instr.push 0#8, .add 0#8 1#8, .pop 2#8].countP isPush = [Instr.push 0#8, .add 0#8 1#8, .pop 2#8].countP isPop ∧
    (after (execSeq [.push 0#8, .add 0#8 1#8, .pop 2#8] (st 0 [] 0 (regs 1 2 0 0 0 0 0 0xF4)))).map
      (fun t => (t.status, t.reg 7, t.reg 0, t.reg 2)) = some (.running, 0xF4#8, 3#8, 1#8) := by
  refine ⟨?_, by decide, by decide⟩
  intro i hi
  simp only [List.mem_cons, List.not_mem_nil, or_false] at hi
  rcases hi with rfl | rfl | rfl <;> decide

theorem witness_MemoryAccessesAreBoundsChecked :
    ¬((0 : Int) ≤ -1 ∧ (-1 : Int) < 256) ∧ ¬((0 : Int) ≤ 256 ∧ (256 : Int) < 256) ∧
    ((0 : Int) ≤ 0 ∧ (0 : Int) < 256) ∧ ((0 : Int) ≤ 255 ∧ (255 : Int) < 256) := by decide

theorem witness_EqualMemoriesAreEqualLists : Memory.wf [(0, 1#8), (255, 2#8)] ∧
    ¬Memory.wf [(255, 2#8), (0, 1#8)] ∧ ¬Memory.wf [(0, 0#8)] ∧ ¬Memory.wf [(256, 1#8)] := by decide

theorem witness_StepKeepsTheInvariant : State.Inv State.reset ∧ ∃ t, step State.reset = .next t :=
  ⟨⟨by decide, (fun _ h => nomatch h), rfl, (fun h => nomatch h)⟩, _, rfl⟩

theorem witness_CommandsKeepTheSessionInvariant : Session.Inv ⟨State.reset, true⟩ ∧
    ∃ q', Session.apply (.load [1#8]) ⟨State.reset, true⟩ = .next q' :=
  ⟨⟨⟨by decide, (fun _ h => nomatch h), rfl, (fun h => nomatch h)⟩, fun _ => rfl⟩, _, rfl⟩

theorem witness_EveryRunEndsWithin257Steps : wLast.status = .running ∧
    (after (step wLast)).map (fun t => (t.status, t.pc.val)) = some (.running, 256) := by decide

/-- V1 runs to HLT; and P5's end, without one, is Faulted. -/
theorem witness_SafeRunsEndAtHlt :
    (after (run (State.reset.load [0x82#8, 0x00#8, 0x08#8, 0x47#8, 0x00#8, 0x01#8]))).map
      (fun t => (t.status, t.pc.val, t.out)) = some (.halted, 6, [.print 8#8, .haltNotice]) ∧
    (after (run (State.reset.load [0x82#8, 0x00#8, 0x2A#8, 0x47#8, 0x00#8]))).map
      (fun t => (t.status, t.pc.val, t.out)) = some (.faulted (.unknownOpcode 0#8), 5, [.print 42#8]) := by
  decide

end Sys2Proof.Tests
end

section
/-! SUPPORT. The invariant of the state and of a session, and what a step can change: the proofs about
10_state.md. -/

namespace Sys2Proof.Machine

/-! ## The opcode of an instruction -/

theorem toByte_inj {op op' : Opcode} : op.toByte = op'.toByte ↔ op = op' := by
  refine ⟨fun h => ?_, congrArg _⟩
  simpa using congrArg Opcode.ofByte h

theorem eq_opcode_of_build_eq {op : Opcode} {a b : Byte} {i : Instr} (h : op.build a b = i) :
    op = i.opcode := by
  rw [← h, build_opcode]

theorem toByte_eq_of_build_eq {op : Opcode} {a b : Byte} {i : Instr} (h : op.build a b = i) :
    op.toByte = i.opcode.toByte :=
  congrArg _ (eq_opcode_of_build_eq h)

theorem build_eq_hlt {op : Opcode} {a b : Byte} : op.build a b = .hlt ↔ op = .hlt :=
  ⟨eq_opcode_of_build_eq, by rintro rfl; rfl⟩

/-! ## What a completed instruction and a fault do to the fields of the state -/

section Outcome

variable {i : Instr} {s t : State} {f : Fault} {es : List Event}

/-- The inversion of `exec_cases`: a next state is that of a fault or of a completed execution. -/
theorem exec_next_cases (e : exec i s = .next t) : (∃ f, t = s.takeFault f) ∨ Completed i s t := by
  rcases exec_cases i s with ⟨u, e', c⟩ | ⟨f, e', -⟩
  · cases e.symm.trans e'
    exact .inr c
  · cases e.symm.trans e'
    exact .inl ⟨f, rfl⟩

theorem exec_answers_next (i : Instr) (s : State) : ∃ t, exec i s = .next t := by
  rcases exec_cases i s with ⟨t, e, -⟩ | ⟨f, e, -⟩
  · exact ⟨t, e⟩
  · exact ⟨_, e⟩

theorem step_answers_next (s : State) : ∃ t, step s = .next t := by
  by_cases hs : s.status = .running
  · rcases step_running_cases hs with ⟨op, -, -, e⟩ | ⟨-, e⟩ | ⟨-, -, e⟩ | ⟨-, -, -, -, e⟩
    · exact e ▸ exec_answers_next _ s
    all_goals exact ⟨_, e⟩
  · exact ⟨s, step_stopped hs⟩

theorem Emits.eq_haltNotice (h : Emits .hlt s es) : es = [.haltNotice] := by
  cases h with
  | hlt _ => rfl
  | prn _ _ hi _ => cases hi
  | none hi _ => exact absurd rfl hi

theorem Emits.eq_print {a : Byte} (h : Emits (.prn a) s es) :
    ∃ r : RegIx, r.val = a.toNat ∧ es = [.print (s.reg r)] := by
  cases h with
  | hlt hi => cases hi
  | prn _ r hi hr =>
    cases hi
    exact ⟨r, hr, rfl⟩
  | none _ hi => exact absurd rfl (hi a)

theorem Emits.eq_nil (h : Emits i s es) (hh : i ≠ .hlt) (hp : ∀ a, i ≠ .prn a) : es = [] := by
  cases h with
  | hlt hi => exact absurd hi hh
  | prn a _ hi _ => exact absurd hi (hp a)
  | none _ _ => rfl

theorem Emits.count_haltNotice (h : Emits i s es) :
    es.count .haltNotice = if i = .hlt then 1 else 0 := by
  cases h with
  | hlt hi => simp [hi]
  | prn a _ hi _ => simp [hi]
  | none hi _ => simp [hi]

theorem Completed.out_eq (c : Completed i s t) (hh : i ≠ .hlt) (hp : ∀ a, i ≠ .prn a) :
    t.out = s.out := by
  obtain ⟨es, hes, hout⟩ := c.out
  rw [hout, hes.eq_nil hh hp, List.append_nil]

theorem Completed.mem_eq (c : Completed i s t) (hi : ∀ a, i ≠ .push a) : t.mem = s.mem := by
  rcases c.mem with h | ⟨a, -, ha, -⟩
  · exact h
  · exact absurd ha (hi a)

/-- The one cell a completed instruction can change is the one below the stack pointer (R142). -/
theorem Completed.get_mem (c : Completed i s t) {k : Nat} (hk : (k : Int) ≠ (s.sp.toNat : Int) - 1) :
    Memory.get t.mem k = Memory.get s.mem k := by
  rcases c.mem with h | ⟨_, _, _, _, hs, h⟩
  · rw [h]
  · rw [h, get_set_other _ _ (by omega)]

theorem Completed.status_eq (c : Completed i s t) (hi : i ≠ .hlt) : t.status = s.status :=
  c.status.trans (if_neg hi)

theorem Completed.halted_iff (c : Completed i s t) (hs : s.status = .running) :
    t.status = .halted ↔ i = .hlt := by
  rw [c.status, hs]
  split <;> simp [*]

theorem Completed.mem_wf (c : Completed i s t) (h : Memory.wf s.mem) : Memory.wf t.mem := by
  rcases c.mem with hm | ⟨_, _, _, _, _, hm⟩
  · exact hm ▸ h
  · have := s.sp.isLt
    exact hm ▸ set_wf _ h (by omega)

theorem Takes.infoInRange (h : Takes i s f) : f.InfoInRange := by
  cases h with
  | past _ => exact .inr rfl
  | register _ _ _ ha => exact ha
  | divide => trivial
  | push => exact .inl rfl
  | pop => exact .inr rfl

theorem StepTakes.infoInRange (h : StepTakes s f) : f.InfoInRange := by
  cases h with
  | fetch _ => exact .inr rfl
  | opcode _ h => exact h
  | instr _ _ _ _ h => exact h.infoInRange

theorem StepTakes.ne_programTooLarge (h : StepTakes s f) (n : Nat) : f ≠ .programTooLarge n := by
  rintro rfl
  cases h with
  | instr _ _ _ _ h => cases h

/-- An HLT below address 256 takes no fault: it fits, and it has no operand (R100). -/
theorem StepTakes.opcodeAt_ne_hlt (h : StepTakes s f) (hpc : s.pc.val < 256) :
    s.opcodeAt s.pc.val ≠ 0x01#8 := by
  intro hb
  cases h with
  | fetch h => omega
  | opcode _ h =>
    rw [hb] at h
    cases h
  | instr op _ _ hop h =>
    obtain rfl : op = .hlt := toByte_inj.1 (hop.symm.trans hb)
    cases h with
    | past h =>
      simp only [build_opcode, Opcode.format, Format.length] at h
      omega
    | register _ _ ha _ => cases ha
    | divide _ _ _ hi => cases hi
    | push _ hi => cases hi
    | pop _ hi => cases hi

end Outcome

/-! ## The invariant -/

section Invariant

variable {s t : State}

theorem State.Inv.count_haltNotice_running (h : s.Inv) (hs : s.status = .running) :
    s.out.count .haltNotice = 0 := by
  simpa [hs] using h.haltNotices

theorem State.Inv.takeFault {f : Fault} (h : s.Inv) (hs : s.status = .running) (hf : f.InfoInRange) :
    (s.takeFault f).Inv where
  memory := h.memory
  faultInfo g hg := by
    cases hg
    exact hf
  haltNotices := by simpa using h.count_haltNotice_running hs
  haltNoticeLast hh := by cases hh

/-- A completed instruction of a running machine halts it exactly if it emits the one HaltNotice. -/
theorem State.Inv.completed {i : Instr} (h : s.Inv) (hs : s.status = .running) (c : Completed i s t) :
    t.Inv := by
  obtain ⟨es, hes, hout⟩ := c.out
  refine ⟨c.mem_wf h.memory, fun f hf => absurd hf (c.notFaulted hs f), ?_, fun ht => ?_⟩
  · rw [hout, List.count_append, h.count_haltNotice_running hs, hes.count_haltNotice, Nat.zero_add]
    simp only [c.halted_iff hs]
  · obtain rfl := (c.halted_iff hs).1 ht
    simp [hout, hes.eq_haltNotice]

theorem State.Inv.step (h : s.Inv) (e : Machine.step s = .next t) : t.Inv := by
  by_cases hs : s.status = .running
  · rcases step_cases hs e with ⟨op, -, -, c⟩ | ⟨f, rfl, hf⟩
    · exact h.completed hs c
    · exact h.takeFault hs hf.infoInRange
  · cases (step_stopped hs).symm.trans e
    exact h

theorem State.Inv.runFor {k : Nat} (h : s.Inv) (e : Machine.runFor k s = .next t) : t.Inv := by
  induction k generalizing s with
  | zero =>
    cases e
    exact h
  | succ k ih =>
    by_cases hs : s.status = .running
    · obtain ⟨u, eu⟩ := step_answers_next s
      simp only [Machine.runFor, hs, eu] at e
      exact ih (h.step eu) e
    · cases (runFor_stopped hs _).symm.trans e
      exact h

theorem resetWith_inv (init : InitRegs) : (State.resetWith init).Inv where
  memory := nil_wf
  faultInfo _ h := by cases h
  haltNotices := rfl
  haltNoticeLast h := by cases h

theorem State.Inv.load {image : List Byte} (h : s.Inv) (hs : s.status = .running) : (s.load image).Inv := by
  unfold State.load
  split
  · exact h.takeFault hs ‹_›
  · exact ⟨storeBytes_wf image h.memory (by omega), h.faultInfo, h.haltNotices, h.haltNoticeLast⟩

/-- A step or run in a session keeps its invariant if it keeps the state's: no load may come after it. -/
theorem Session.Inv.after {o : Host.Outcome State Fault Refusal} {q : Session}
    (h : ∀ t, o = .next t → t.Inv) (e : Session.after o = .next q) : q.Inv := by
  cases o with
  | next t =>
    cases e
    exact ⟨h t rfl, fun hl => by cases hl⟩
  | fault f => cases e
  | refused r => cases e

theorem Session.Inv.apply {c : Command} {q q' : Session} (h : q.Inv) (e : q.apply c = .next q') : q'.Inv := by
  cases c with
  | reset init =>
    cases e
    exact ⟨resetWith_inv init, fun _ => rfl⟩
  | load image =>
    simp only [Session.apply] at e
    split at e
    · cases e
      exact ⟨h.state.load (h.loadFirst ‹_›), fun hl => by cases hl⟩
    · cases e
  | step => exact .after (fun _ => h.state.step) e
  | run => exact .after (fun _ => h.state.runFor) e

end Invariant

/-- Settles O44: a step of a running machine completes an instruction or takes a fault, and each keeps the
invariant; a stopped machine stays as it is. -/
theorem stepKeepsTheInvariant : Obligations.StepKeepsTheInvariant :=
  fun _ _ h e => h.step e

/-- Settles O45, by cases on the command; a run keeps the invariant by induction on its fuel. -/
theorem commandsKeepTheSessionInvariant : Obligations.CommandsKeepTheSessionInvariant :=
  fun _ _ _ h e => h.apply e

/-! ## What one step changes -/

/-- Settles O20: a completed instruction halts exactly if it is HLT, and an HLT takes no fault. -/
theorem onlyHltHalts : Obligations.OnlyHltHalts := by
  intro s t hs e
  rcases step_cases hs e with ⟨op, hpc, hb, c⟩ | ⟨f, rfl, hf⟩
  · have hhalt := c.halted_iff hs
    refine ⟨?_, fun hn => .inl ((c.status_eq (mt hhalt.2 hn)).trans hs)⟩
    rw [hhalt, build_eq_hlt, ← toByte_inj, ← hb]
    exact (and_iff_right hpc).symm
  · refine ⟨⟨fun h => (by cases h), fun ⟨hpc, hb⟩ => absurd hb (hf.opcodeAt_ne_hlt hpc)⟩, fun _ => .inr ?_⟩
    exact ⟨f, rfl, hf.infoInRange, hf.ne_programTooLarge⟩

/-- Settles O21, by what a completed instruction leaves in memory. -/
theorem onlyPushWritesMemory : Obligations.OnlyPushWritesMemory := by
  intro s t k hs e hne
  rcases step_cases hs e with ⟨op, -, hb, c⟩ | ⟨f, rfl, -⟩
  · refine ⟨?_, by_contra fun hk => hne (c.get_mem hk)⟩
    by_contra hop
    exact hne (congrArg (Memory.get · k) (c.mem_eq fun a ha => hop (hb.trans (toByte_eq_of_build_eq ha))))
  · exact absurd rfl hne

/-- Settles O22, by the events of a completed instruction; a fault emits none. -/
theorem stepEmitsAtMostItsEvent : Obligations.StepEmitsAtMostItsEvent := by
  intro s t hs e
  rcases step_cases hs e with ⟨op, -, hb, c⟩ | ⟨f, rfl, -⟩
  · obtain ⟨es, hes, hout⟩ := c.out
    refine ⟨fun _ h => ?_, fun _ h => ?_, fun hp hh => ?_, fun f hf => absurd hf (c.notFaulted hs f)⟩
    · obtain rfl : op = .prn := toByte_inj.1 (hb.symm.trans h)
      obtain ⟨r, hr, rfl⟩ := hes.eq_print
      exact ⟨r, hr, hout⟩
    · obtain rfl : op = .hlt := toByte_inj.1 (hb.symm.trans h)
      exact hes.eq_haltNotice ▸ hout
    · exact c.out_eq (fun h => hh (hb.trans (toByte_eq_of_build_eq h)))
        (fun a h => hp (hb.trans (toByte_eq_of_build_eq h)))
  · exact ⟨fun h => absurd rfl (h f), fun h => absurd rfl (h f), fun _ _ => rfl, fun _ _ => rfl⟩

/-! ## Frames -/

/-- Settles O35: neither instruction writes a register, and neither is a PUSH. -/
theorem frameOfHltAndPrn : Obligations.FrameOfHltAndPrn := by
  intro a i s t hi e
  rcases exec_next_cases e with ⟨f, rfl⟩ | c
  · exact ⟨fun _ => rfl, fun _ => rfl, ⟨[], List.append_nil _⟩, .inr (.inr ⟨f, rfl⟩)⟩
  · have hi' : regsWritten i = [] ∧ ∀ c, i ≠ .push c := by
      simp only [List.mem_cons, List.not_mem_nil, or_false] at hi
      rcases hi with rfl | rfl <;> simp [regsWritten]
    obtain ⟨hwritten, hpush⟩ := hi'
    obtain ⟨es, -, hout⟩ := c.out
    refine ⟨fun r => c.reg r (by simp [hwritten]), fun _ => by rw [c.mem_eq hpush], ⟨es, hout.symm⟩, ?_⟩
    by_cases hh : i = .hlt
    · exact .inr (.inl ⟨hh, c.status.trans (if_pos hh)⟩)
    · exact .inl (c.status_eq hh)

/-- Settles O36: r7 is the one register PUSH writes, and its cell is the one below the stack pointer. -/
theorem frameOfPush : Obligations.FrameOfPush := by
  intro a s t e
  rcases exec_next_cases e with ⟨f, rfl⟩ | c
  · exact ⟨fun _ _ => rfl, fun _ _ _ _ => rfl, rfl, .inr ⟨f, rfl⟩⟩
  · refine ⟨fun r hr => c.reg r ?_, ?_, c.out_eq (by simp) (by simp), .inl c.status⟩
    · simpa [regsWritten, Fin.ext_iff, eq_comm] using hr
    · rintro addr rfl k hk
      exact c.get_mem hk

/-- Settles O37: A and r7 are the registers POP writes, and only a PUSH changes memory. -/
theorem frameOfPop : Obligations.FrameOfPop := by
  intro a s t e
  rcases exec_next_cases e with ⟨f, rfl⟩ | c
  · exact ⟨fun _ _ _ => rfl, fun _ => rfl, rfl, .inr ⟨f, rfl⟩⟩
  · refine ⟨fun r ha h7 => c.reg r ?_, fun _ => by rw [c.mem_eq (by simp)], c.out_eq (by simp) (by simp),
      .inl c.status⟩
    simp only [regsWritten, List.mem_cons, List.not_mem_nil, or_false, forall_eq_or_imp, forall_eq]
    exact ⟨ha.symm, fun h => h7 (Fin.ext h.symm)⟩

/-! ## Registers an instruction does not read -/

section Unread

variable {s : State} {k : RegIx} {v : Byte} {written : List Byte}

theorem setReg_comm (s : State) {q r : RegIx} (v w : Byte) (h : q ≠ r) :
    (s.setReg q v).setReg r w = (s.setReg r w).setReg q v := by
  simp [State.setReg, Vector.set_comm _ _ (Fin.val_ne_of_ne h)]

/-- How the results of one instruction from `s` and from `s.setReg k v` compare when it does not read `k`:
the same fault; states that differ in `k` alone, which is not written; or the same state. -/
inductive AgreeUpTo (k : RegIx) (v : Byte) (written : List Byte) :
    Except Fault State → Except Fault State → Prop where
  | fault (f : Fault) : AgreeUpTo k v written (.error f) (.error f)
  | kept (t : State) : (∀ b ∈ written, b.toNat ≠ k.val) → AgreeUpTo k v written (.ok t) (.ok (t.setReg k v))
  | same (t : State) : AgreeUpTo k v written (.ok t) (.ok t)

/-- A computation that both sides make first, and that answers the same, may be taken off. -/
theorem AgreeUpTo.bind {α : Type} (x : Except Fault α) {g g' : α → Except Fault State}
    (h : ∀ y, x = .ok y → AgreeUpTo k v written (g y) (g' y)) :
    AgreeUpTo k v written (x >>= g) (x >>= g') := by
  cases x with
  | error f => exact .fault f
  | ok y => exact h y rfl

theorem regOperand_val {a : Byte} {r : RegIx} (h : regOperand a = .ok r) : r.val = a.toNat := by
  rcases regOperand_cases a with ⟨q, hq, e⟩ | ⟨-, e⟩
  · cases h.symm.trans e
    exact hq
  · cases h.symm.trans e

theorem toNat_ne_of_operand {a : Byte} {r : RegIx} (hr : regOperand a = .ok r) (h : k ≠ r) :
    a.toNat ≠ k.val := by
  rw [← regOperand_val hr]
  exact Fin.val_ne_of_ne h.symm

theorem toNat_seven_ne (h : k ≠ Config.spIndex) : (7#8).toNat ≠ k.val :=
  Fin.val_ne_of_ne h.symm

/-- The register of an operand byte other than `k`'s reads the same after a write of `k`. -/
theorem reg_setReg_operand {a : Byte} {r : RegIx} (hr : regOperand a = .ok r) (ha : a.toNat ≠ k.val) :
    (s.setReg k v).reg r = s.reg r := by
  refine reg_setReg_other s k v ?_
  rintro rfl
  exact ha (regOperand_val hr).symm

/-- Writing the destination makes up for an unread register that is the destination, and leaves any other. -/
theorem AgreeUpTo.write {a : Byte} {r : RegIx} (hr : regOperand a = .ok r) (w : Byte) (p : Pc) :
    AgreeUpTo k v [a] (.ok { s.setReg r w with pc := p }) (.ok { (s.setReg k v).setReg r w with pc := p }) := by
  by_cases h : k = r
  · subst h
    rw [setReg_setReg_same]
    exact .same _
  · rw [setReg_comm s v w h]
    refine .kept { s.setReg r w with pc := p } ?_
    simpa using toNat_ne_of_operand hr h

/-- Two meanings' outcomes, from `s` and from `s.setReg k v`, end in results that agree. -/
def OutcomesAgree (k : RegIx) (v : Byte) (written : List Byte) (s : State)
    (o o' : Host.Outcome State Fault Refusal) : Prop :=
  ∃ r r', o = s.finish r ∧ o' = (s.setReg k v).finish r' ∧ AgreeUpTo k v written r r'

theorem sp_setReg (h : k ≠ Config.spIndex) : (s.setReg k v).sp = s.sp :=
  reg_setReg_other s k v h.symm

theorem alu_agree (op : AluOp) {a b : Byte} (ha : a.toNat ≠ k.val) (hb : b.toNat ≠ k.val) :
    OutcomesAgree k v [a] s (alu op a b s) (alu op a b (s.setReg k v)) := by
  refine ⟨_, _, rfl, rfl, .bind (s.pcAfter 3) fun p _ => .bind _ fun ra hra => .bind _ fun rb hrb => ?_⟩
  rw [reg_setReg_operand hra ha, reg_setReg_operand hrb hb]
  exact .bind _ fun w _ => .write hra w p

theorem execPush_agree {a : Byte} (ha : a.toNat ≠ k.val) (h7 : k ≠ Config.spIndex) :
    OutcomesAgree k v [7#8] s (execPush a s) (execPush a (s.setReg k v)) := by
  refine ⟨_, _, rfl, rfl, .bind (s.pcAfter 2) fun p _ => .bind _ fun r hr => ?_⟩
  simp only [State.pushAddress, sp_setReg h7, reg_setReg_operand hr ha]
  refine .bind _ fun nsp _ => .bind _ fun m _ => ?_
  rw [setReg_comm s v nsp h7]
  refine .kept { s.setReg Config.spIndex nsp with mem := m, pc := p } ?_
  simpa using toNat_seven_ne h7

theorem execPop_agree {a : Byte} (h7 : k ≠ Config.spIndex) :
    OutcomesAgree k v [a, 7#8] s (execPop a s) (execPop a (s.setReg k v)) := by
  refine ⟨_, _, rfl, rfl, .bind (s.pcAfter 2) fun p _ => .bind _ fun r hr => ?_⟩
  simp only [State.popSp, sp_setReg h7]
  refine .bind _ fun w _ => .bind _ fun nsp _ => ?_
  by_cases h : k = r
  · subst h
    rw [setReg_setReg_same]
    exact .same _
  · rw [setReg_comm s v w h, setReg_comm _ v nsp h7]
    refine .kept { (s.setReg r w).setReg Config.spIndex nsp with pc := p } ?_
    simpa using ⟨toNat_ne_of_operand hr h, toNat_seven_ne h7⟩

theorem exec_agree {i : Instr} (h : ∀ b ∈ regsRead i, b.toNat ≠ k.val) :
    OutcomesAgree k v (regsWritten i) s (exec i s) (exec i (s.setReg k v)) := by
  cases i with
  | hlt =>
    refine ⟨_, _, rfl, rfl, .bind (s.pcAfter 1) fun p _ => ?_⟩
    exact .kept { s.halt.emit .haltNotice with pc := p } (by simp [regsWritten])
  | ldi a imm =>
    exact ⟨_, _, rfl, rfl, .bind (s.pcAfter 3) fun p _ => .bind _ fun r hr => .write hr imm p⟩
  | prn a =>
    refine ⟨_, _, rfl, rfl, .bind (s.pcAfter 2) fun p _ => .bind _ fun r hr => ?_⟩
    rw [reg_setReg_operand hr (h a (by simp [regsRead]))]
    exact .kept { s.emit (.print (s.reg r)) with pc := p } (by simp [regsWritten])
  | add a b => exact alu_agree .add (h a (by simp [regsRead])) (h b (by simp [regsRead]))
  | sub a b => exact alu_agree .sub (h a (by simp [regsRead])) (h b (by simp [regsRead]))
  | mul a b => exact alu_agree .mul (h a (by simp [regsRead])) (h b (by simp [regsRead]))
  | div a b => exact alu_agree .div (h a (by simp [regsRead])) (h b (by simp [regsRead]))
  | push a =>
    exact execPush_agree (h a (by simp [regsRead])) fun hk => h 7#8 (by simp [regsRead]) (hk ▸ rfl)
  | pop a => exact execPop_agree fun hk => h 7#8 (by simp [regsRead]) (hk ▸ rfl)

end Unread

/-- Settles O38, by what the results from the two states can be (`exec_agree`). -/
theorem unreadRegistersDoNotMatter : Obligations.UnreadRegistersDoNotMatter := by
  intro i s t t' k v hread e e'
  obtain ⟨r, r', er, er', h⟩ := exec_agree (s := s) (v := v) hread
  rw [e] at er
  rw [e'] at er'
  cases h with
  | fault f =>
    cases er
    cases er'
    exact ⟨rfl, rfl, rfl, rfl, fun q hq => reg_setReg_other s k v hq, fun _ hn => absurd rfl (hn f)⟩
  | kept u hw =>
    cases er
    cases er'
    exact ⟨rfl, rfl, rfl, rfl, fun q hq => reg_setReg_other _ k v hq, fun ⟨b, hb, hk⟩ => absurd hk (hw b hb)⟩
  | same u =>
    cases er
    cases er'
    exact ⟨rfl, rfl, rfl, rfl, fun _ _ => rfl, fun _ _ => rfl⟩

/-! ## Canonical memories -/

section Canonical

variable {m : Memory} {a : Nat} {v : Byte}

theorem mem_of_get_eq (h : Memory.get m a = v) (hv : v ≠ Memory.unlisted) : (a, v) ∈ m := by
  induction m with
  | nil => exact absurd h.symm hv
  | cons c m ih =>
    obtain ⟨b, w⟩ := c
    simp only [Memory.get] at h
    split at h
    · subst_vars
      exact List.mem_cons_self
    · exact List.mem_cons_of_mem _ (ih h)

theorem get_eq_of_mem (hm : List.Pairwise (fun c d => c.1 < d.1) m) (h : (a, v) ∈ m) :
    Memory.get m a = v := by
  induction m with
  | nil => cases h
  | cons c m ih =>
    obtain ⟨hlt, hm⟩ := List.pairwise_cons.1 hm
    simp only [Memory.get]
    rcases List.mem_cons.1 h with rfl | h
    · exact if_pos rfl
    · have : c.1 < a := hlt _ h
      rw [if_neg (by omega), ih hm h]

/-- The cells of a canonical memory are those that do not read as an unlisted one. -/
theorem mem_iff_get (hm : Memory.wf m) :
    (a, v) ∈ m ↔ a < 256 ∧ v ≠ Memory.unlisted ∧ Memory.get m a = v := by
  refine ⟨fun h => ?_, fun ⟨_, hv, h⟩ => mem_of_get_eq h hv⟩
  obtain ⟨ha, hv⟩ := hm.2 _ h
  exact ⟨ha, hv, get_eq_of_mem hm.1 h⟩

end Canonical

/-- Settles O42: both lists have the same cells, and each is sorted. -/
theorem equalMemoriesAreEqualLists : Obligations.EqualMemoriesAreEqualLists := by
  intro m n hm hn h
  have cells : ∀ c, c ∈ m ↔ c ∈ n := fun (a, v) => by
    rw [mem_iff_get hm, mem_iff_get hn]
    exact and_congr_right fun ha => by rw [h a ha]
  have : Std.Irrefl fun c d : Host.Cell => c.1 < d.1 := ⟨fun c => Nat.lt_irrefl c.1⟩
  have : Std.Antisymm fun c d : Host.Cell => c.1 < d.1 := ⟨fun _ _ h h' => absurd h (Nat.lt_asymm h')⟩
  exact hm.1.eq_of_mem_iff hn.1 cells

end Sys2Proof.Machine
end

section
/-! SUPPORT. The memory accesses, and the PUSH whose store the next step fetches: the proofs about
20_memory.md. -/

namespace Sys2Proof.Machine

/-! ## Memory accesses -/

section Access

variable {m : Memory} {addr : Int} {v : Byte}

theorem memWrite_out (h : ¬(0 ≤ addr ∧ addr < 256)) :
    memWrite m addr v = .error (.outOfBounds addr) := by
  simp [memWrite, checkAddress, h]

/-- A write changes no other access, be it in range or not (R41). -/
theorem memRead_set_other {a : Nat} {c : Int} (hc : c ≠ a) :
    memRead (Memory.set m a v) c = memRead m c := by
  rcases checkAddress_cases c with ⟨k, hk, rfl, -⟩ | ⟨hout, -⟩
  · rw [memRead_ofNat _ hk, memRead_ofNat _ hk, get_set_other _ _ (by omega)]
  · rw [memRead_out _ hout, memRead_out _ hout]

end Access

/-- Settles O41: out of range both accesses fault; in range the address is a cell's, and a read follows
the write as `get_set` says. -/
theorem memoryAccessesAreBoundsChecked : Obligations.MemoryAccessesAreBoundsChecked := by
  intro m addr v
  rcases checkAddress_cases addr with ⟨a, ha, rfl, -⟩ | ⟨hout, -⟩
  · refine ⟨fun h => absurd (by omega) h, fun _ => ⟨memRead_ofNat m ha, _, memWrite_ofNat m v ha, ?_, ?_⟩⟩
    · rw [memRead_ofNat _ ha, get_set_same]
    · exact fun _ => memRead_set_other
  · exact ⟨fun _ => ⟨memRead_out m hout, memWrite_out hout⟩, fun h => absurd h hout⟩

/-! ## A PUSH and the fetch after it -/

section PushThenFetch

variable {s t : State} {r : RegIx} {f : Fault} {i : Instr}

theorem step_of_fetch_ok (hs : s.status = .running) (h : fetch s = .ok i) : step s = exec i s := by
  simp only [step, hs, h]

theorem step_of_fetch_error (hs : s.status = .running) (h : fetch s = .error f) :
    step s = .next (s.takeFault f) := by
  simp only [step, hs, h]

/-- A completed PUSH step is `exec` of the PUSH whose operand byte stands after the opcode (R84, R142). -/
theorem step_push (hs : s.status = .running) (hb : s.opcodeAt s.pc.val = 0x45#8)
    (e : step s = .next t) (hn : t.NotFaulted) :
    execPush (s.opcodeAt (s.pc.val + 1)) s = .next t := by
  rcases step_running_cases hs with ⟨op, -, hop, e'⟩ | ⟨-, e'⟩ | ⟨-, -, e'⟩ | ⟨-, -, -, -, e'⟩
  · obtain rfl : op = .push := toByte_inj.1 (hop.symm.trans hb)
    exact e'.symm.trans e
  all_goals
    cases e.symm.trans e'
    exact absurd rfl (hn _)

/-- The one completed outcome of PUSH: it stores the register its operand byte names below the old
stack pointer, and leaves the status. -/
theorem execPush_completed {a : Byte} (e : execPush a s = .next t) (hn : t.NotFaulted)
    (hr : r.val = a.toNat) :
    1 ≤ s.sp.toNat ∧ t.status = s.status ∧
      t.mem = Memory.set s.mem (s.sp.toNat - 1) (if r = 7 then s.sp - 1#8 else s.reg r) := by
  rcases execPush_cases s a with ⟨-, e'⟩ | ⟨-, -, e'⟩ | ⟨-, -, -, e'⟩ | ⟨p, q, -, hq, hsp, e'⟩
  case inr.inr.inr =>
    obtain rfl : r = q := Fin.ext (hr.trans hq.symm)
    cases e.symm.trans e'
    exact ⟨hsp, rfl, rfl⟩
  all_goals
    cases e.symm.trans e'
    exact absurd rfl (hn _)

end PushThenFetch

/-- Settles O23: the PUSH leaves the machine running over the memory that reads as `seen`, and
`fetch_cases` says what the fetch from that memory answers. -/
theorem pushStoreIsSeenByTheNextFetch : Obligations.PushStoreIsSeenByTheNextFetch := by
  intro s t r hs hb e hn hr seen
  obtain ⟨hsp, hstatus, hmem⟩ := execPush_completed (step_push hs hb e hn) hn hr
  have hrun : t.status = .running := hstatus.trans hs
  have hseen : t.opcodeAt = seen := by
    funext c
    have haddr : (c : Int) = (s.sp.toNat : Int) - 1 ↔ c = s.sp.toNat - 1 := by omega
    simp only [seen, State.opcodeAt, hmem, get_set, haddr]
  clear_value seen
  subst hseen
  refine ⟨fun _ => rfl, ?_⟩
  rcases fetch_cases t with ⟨hpc, hf⟩ | ⟨hpc, hop, hf⟩ | ⟨op, hpc, hop, hfit⟩
  · refine ⟨fun h => absurd h (by omega), fun _ h => absurd h (by omega), fun _ => ?_⟩
    exact ⟨hf, step_of_fetch_error hrun hf⟩
  · refine ⟨fun _ _ => ⟨hf, step_of_fetch_error hrun hf⟩, fun op' _ h => ?_, fun h => absurd h (by omega)⟩
    cases hop.symm.trans h
  · have hop' : Opcode.ofByte (t.opcodeAt t.pc.val) = some op := ofByte_eq_some.2 hop
    refine ⟨fun _ h => ?_, fun op' _ h => ?_, fun h => absurd h (by omega)⟩
    · cases hop'.symm.trans h
    · cases hop'.symm.trans h
      rcases hfit with ⟨hpast, hf⟩ | ⟨hfits, hf⟩
      · exact ⟨fun h => absurd h (by omega), fun _ => ⟨hf, step_of_fetch_error hrun hf⟩⟩
      · exact ⟨fun _ => ⟨hf, step_of_fetch_ok hrun hf⟩, fun h => absurd h (by omega)⟩

end Sys2Proof.Machine
end

section
/-! SUPPORT. The encoder and the decoder as inverses, the illegal opcode bytes, the length rule, and the
assembler's round trip: the proofs about 30_encoding.md. -/

namespace Sys2Proof

/-! ## The encoding, format by format -/

/-- The encoding of a built instruction: as many of its three bytes as the format has (R62). -/
theorem encode_build (op : Opcode) (a b : Byte) :
    encode (op.build a b) = [op.toByte, a, b].take op.format.length := by
  cases op <;> rfl

theorem decode_encode (i : Instr) (rest : List Byte) : decode (encode i ++ rest) = .ok (i, rest) := by
  cases i with
  | hlt => exact decode_toByte .hlt rest
  | ldi a imm => exact decode_toByte .ldi (a :: imm :: rest)
  | prn a => exact decode_toByte .prn (a :: rest)
  | add a b => exact decode_toByte .add (a :: b :: rest)
  | sub a b => exact decode_toByte .sub (a :: b :: rest)
  | mul a b => exact decode_toByte .mul (a :: b :: rest)
  | div a b => exact decode_toByte .div (a :: b :: rest)
  | push a => exact decode_toByte .push (a :: rest)
  | pop a => exact decode_toByte .pop (a :: rest)

/-- Only the three formats' complete encodings decode; bytes that end early do not (R84). -/
theorem decode_toByte_ok {op : Opcode} {tl rest : List Byte} {i : Instr}
    (h : decode (op.toByte :: tl) = .ok (i, rest)) : op.toByte :: tl = encode i ++ rest := by
  rw [decode_toByte] at h
  split at h
  case h_1 hf | h_2 hf | h_4 hf => cases h; simp [encode_build, hf, Format.length]
  all_goals cases h

theorem encode_of_decode {bs rest : List Byte} {i : Instr} (h : decode bs = .ok (i, rest)) :
    bs = encode i ++ rest := by
  cases bs with
  | nil => cases h
  | cons ir tl =>
    cases hop : Opcode.ofByte ir with
    | none => cases (decode_unknown hop tl).symm.trans h
    | some op =>
      obtain rfl := ofByte_eq_some.1 hop
      exact decode_toByte_ok h

/-! ## The illegal opcode bytes and the length rule -/

theorem ofByte_eq_none {ir : Byte} : Opcode.ofByte ir = none ↔ ∀ op : Opcode, ir ≠ op.toByte := by
  simp only [Option.eq_none_iff_forall_ne_some, ne_eq, ofByte_eq_some]

/-- The nine constants of R64, written out (R67). -/
theorem ofByte_eq_none_iff_not_mem {ir : Byte} : Opcode.ofByte ir = none ↔
    ir ∉ [0x01#8, 0x82#8, 0x47#8, 0xA0#8, 0xA1#8, 0xA2#8, 0xA3#8, 0x45#8, 0x46#8] := by
  simp only [ofByte_eq_none, List.mem_cons, List.not_mem_nil, or_false, not_or]
  constructor
  · exact fun h => ⟨h .hlt, h .ldi, h .prn, h .add, h .sub, h .mul, h .div, h .push, h .pop⟩
  · rintro ⟨hhlt, hldi, hprn, hadd, hsub, hmul, hdiv, hpush, hpop⟩ op
    cases op <;> assumption

/-- No opcode has the top bits 11 (R61). -/
theorem toByte_toNat_lt (op : Opcode) : op.toByte.toNat < 0xC0 := by
  cases op <;> decide

theorem ofByte_of_topBits {ir : Byte} (h : 0xC0 ≤ ir.toNat) : Opcode.ofByte ir = none := by
  refine ofByte_eq_none.2 fun op hop => ?_
  have := toByte_toNat_lt op
  rw [← hop] at this
  omega

theorem insnLength_eq (ir : Byte) : insnLength ir = ir.toNat / 64 + 1 := by
  have := ir.isLt
  simp only [insnLength, BitVec.extractLsb'_toNat, Nat.shiftRight_eq_div_pow]
  omega

theorem encodingLength (i : Instr) : Laws.EncodingLength.Statement i :=
  match i with
  | .hlt => Laws.EncodingLength.hlt
  | .ldi a imm => Laws.EncodingLength.ldi a imm
  | .prn a => Laws.EncodingLength.prn a
  | .add a b => Laws.EncodingLength.add a b
  | .sub a b => Laws.EncodingLength.sub a b
  | .mul a b => Laws.EncodingLength.mul a b
  | .div a b => Laws.EncodingLength.div a b
  | .push a => Laws.EncodingLength.push a
  | .pop a => Laws.EncodingLength.pop a

/-- Counted over all the byte values. -/
theorem countP_illegal :
    ((List.range 256).countP fun n => Opcode.ofByte (BitVec.ofNat 8 n) = none) = 247 := by
  decide +kernel

namespace Machine

theorem fetch_of_illegal {s : State} (hpc : s.pc.val < 256)
    (h : Opcode.ofByte (s.opcodeAt s.pc.val) = none) :
    fetch s = .error (.unknownOpcode (s.opcodeAt s.pc.val)) := by
  rcases fetch_cases s with ⟨hpc', -⟩ | ⟨-, -, hf⟩ | ⟨op, -, hop, -⟩
  · omega
  · exact hf
  · exact absurd hop (ofByte_eq_none.1 h op)

end Machine

/-! ## The assembler's round trip -/

namespace Asm

/-- A word that the lexer does not cut. -/
abbrev Plain (w : List Char) : Prop := w ≠ [] ∧ ∀ c ∈ w, c ∉ [',', ';', '\n', ' ', '\t']

theorem lex_append {w : List Char} (hw : Plain w) (cs acc : List Char) :
    lex (w ++ cs) acc = lex cs (w.reverse ++ acc) := by
  obtain ⟨-, hw⟩ := hw
  induction w generalizing acc with
  | nil => rfl
  | cons c w ih =>
    obtain ⟨hc, hw⟩ := List.forall_mem_cons.1 hw
    simp only [List.mem_cons, List.not_mem_nil, or_false, not_or] at hc
    simp [lex, hc, ih _ hw]

theorem pending_reverse {w : List Char} (hw : Plain w) : pending (w.reverse ++ []) = [.word w] := by
  simp [pending, hw.1]

theorem lex_word {w : List Char} (hw : Plain w) : lex w [] = [.word w] := by
  have h := lex_append hw [] []
  rwa [List.append_nil, lex, pending_reverse hw] at h

theorem lex_word_blank {w : List Char} (hw : Plain w) (cs : List Char) :
    lex (w ++ ' ' :: cs) [] = .word w :: lex cs [] := by
  rw [lex_append hw, lex, pending_reverse hw]
  rfl

theorem lex_word_comma {w : List Char} (hw : Plain w) (cs : List Char) :
    lex (w ++ ',' :: ' ' :: cs) [] = .word w :: .comma :: lex cs [] := by
  rw [lex_append hw, lex, pending_reverse hw]
  rfl

theorem statements_of_no_separator {ts : List Token} (acc : List Token) (h : .separator ∉ ts)
    (hne : acc.reverse ++ ts ≠ []) : statements ts acc = [acc.reverse ++ ts] := by
  induction ts generalizing acc with
  | nil => simpa [statements] using hne
  | cons t ts ih =>
    obtain ⟨ht, hts⟩ := List.ne_and_not_mem_of_not_mem_cons h
    have hcons := ih (t :: acc) hts (by simp)
    cases t with
    | separator => exact absurd rfl ht
    | word w => simpa [statements] using hcons
    | comma => simpa [statements] using hcons

theorem assemble_of_lex {text : List Char} {ts : List Token} {i : Instr} (hl : lex text [] = ts)
    (hs : .separator ∉ ts) (hp : parse? ts = some i) : assemble? text = some [i] := by
  have hne : ts ≠ [] := by rintro rfl; cases hp
  rw [assemble?, hl, statements_of_no_separator [] hs hne]
  simp [parseAll?, hp]

/-! ### The words of the canonical text -/

theorem mnemonic_plain (op : Opcode) : Plain (mnemonic op) := by
  cases op <;> simp [Plain, mnemonic]

theorem mnemonic?_mnemonic (op : Opcode) : mnemonic? (mnemonic op) = some op := by
  cases op <;> rfl

theorem digitChar_toNat {n : Nat} (h : n < 10) : (digitChar n).toNat = 48 + n := by
  have hvalid : (48 + n).isValidChar := .inl (by omega)
  rw [digitChar, Char.toNat_ofNat, if_pos hvalid]

theorem digit?_digitChar {base n : Nat} (hn : n < 10) (hb : n < base) :
    digit? base (digitChar n) = some n := by
  have h : 48 ≤ 48 + n ∧ 48 + n ≤ 57 := by omega
  simp only [digit?, digitChar_toNat hn, if_pos h, Nat.add_sub_cancel_left, if_pos hb]

theorem digitChar_plain {n : Nat} (h : n < 10) : digitChar n ∉ [',', ';', '\n', ' ', '\t'] := by
  revert n
  decide

theorem regName_spec {a : Byte} (h : a.toNat < 8) :
    ∃ w, regName? a = some w ∧ Plain w ∧ register? w = some a := by
  have hd : digit? 8 (digitChar a.toNat) = some a.toNat := digit?_digitChar (by omega) h
  refine ⟨_, if_pos h, ⟨by simp, ?_⟩, ?_⟩
  · exact List.forall_mem_cons.2 ⟨by decide, List.forall_mem_singleton.2 (digitChar_plain (by omega))⟩
  · simp [register?, hd]

theorem mem_decimal {v : Byte} {c : Char} (h : c ∈ decimal v) : ∃ n < 10, c = digitChar n := by
  have := v.isLt
  simp only [decimal] at h
  split at h
  · exact ⟨_, ‹_›, List.mem_singleton.1 h⟩
  · split at h <;> simp only [List.mem_cons, List.not_mem_nil, or_false] at h
    · rcases h with rfl | rfl <;> exact ⟨_, by omega, rfl⟩
    · rcases h with rfl | rfl | rfl <;> exact ⟨_, by omega, rfl⟩

theorem not_mem_decimal {v : Byte} {c : Char} (hc : ∀ n < 10, digitChar n ≠ c) : c ∉ decimal v := by
  intro h
  obtain ⟨n, hn, e⟩ := mem_decimal h
  exact hc n hn e.symm

theorem decimal_ne_nil (v : Byte) : decimal v ≠ [] := by
  simp only [decimal]
  split
  · simp
  · split <;> simp

theorem decimal_plain (v : Byte) : Plain (decimal v) := by
  refine ⟨decimal_ne_nil v, fun c hc => ?_⟩
  obtain ⟨n, hn, rfl⟩ := mem_decimal hc
  exact digitChar_plain hn

theorem digits?_decimal (v : Byte) : digits? 10 0 (decimal v) = some v.toNat := by
  have := v.isLt
  have hd : ∀ n < 10, digit? 10 (digitChar n) = some n := fun _ h => digit?_digitChar h h
  have mod_lt : ∀ n, n % 10 < 10 := fun _ => Nat.mod_lt _ (by decide)
  simp only [decimal]
  split
  · simp only [digits?, hd _ ‹_›, Nat.zero_mul, Nat.zero_add]
  · split
    · simp only [digits?, hd _ (show v.toNat / 10 < 10 by omega), hd _ (mod_lt _)]
      congr 1
      omega
    · simp only [digits?, hd _ (show v.toNat / 100 < 10 by omega), hd _ (mod_lt _)]
      congr 1
      omega

/-- A decimal literal holds no base mark, so it is read in base 10 (R68). -/
theorem immediate?_decimal (v : Byte) : immediate? (decimal v) = some v := by
  have hx : 'x' ∉ decimal v := not_mem_decimal (by decide)
  have hb : 'b' ∉ decimal v := not_mem_decimal (by decide)
  have hnum : number? 10 (decimal v) = some v.toNat := by
    rw [number?, if_neg (decimal_ne_nil v), digits?_decimal]
  unfold immediate?
  split
  next e => exact absurd (by simp [e]) hx
  next e => exact absurd (by simp [e]) hb
  next => simp [hnum, v.isLt]

/-! ### The canonical text, format by format -/

theorem assemble_oneOperand {op : Opcode} {a : Byte} (hf : op.format = .F1) (ha : a.toNat < 8) :
    ∃ text, textOf? op [regName? a] = some text ∧ assemble? text = some [op.build a 0#8] := by
  obtain ⟨w, hw, hplain, hreg⟩ := regName_spec ha
  refine ⟨mnemonic op ++ ' ' :: w, by rw [hw]; rfl, ?_⟩
  have hlex := lex_word_blank (mnemonic_plain op) w
  rw [lex_word hplain] at hlex
  exact assemble_of_lex hlex (by simp) (by simp [parse?, mnemonic?_mnemonic, hreg, hf])

/-- Two operand words with R68's comma between them. -/
theorem assemble_twoWords {op : Opcode} {i : Instr} {wa wb : List Char} (ha : Plain wa) (hb : Plain wb)
    (h : twoOperands? op true wa wb = some i) :
    assemble? (mnemonic op ++ ' ' :: wa ++ ',' :: ' ' :: wb) = some [i] := by
  have hlex := lex_word_blank (mnemonic_plain op) (wa ++ ',' :: ' ' :: wb)
  rw [lex_word_comma ha, lex_word hb] at hlex
  rw [List.append_assoc, List.cons_append]
  exact assemble_of_lex hlex (by simp) (by simp [parse?, mnemonic?_mnemonic, h])

theorem assemble_ldi {a : Byte} (imm : Byte) (ha : a.toNat < 8) :
    ∃ text, textOf? .ldi [regName? a, some (decimal imm)] = some text ∧
      assemble? text = some [.ldi a imm] := by
  obtain ⟨w, hw, hplain, hreg⟩ := regName_spec ha
  refine ⟨_, by rw [hw]; rfl, assemble_twoWords hplain (decimal_plain imm) ?_⟩
  simp [twoOperands?, Opcode.format, hreg, immediate?_decimal, Opcode.build]

theorem assemble_twoRegisters {op : Opcode} {a b : Byte} (hf : op.format = .F2) (hop : op ≠ .ldi)
    (h : ∀ c ∈ [a, b], c.toNat < 8) :
    ∃ text, textOf? op [regName? a, regName? b] = some text ∧ assemble? text = some [op.build a b] := by
  obtain ⟨wa, hwa, hplaina, hrega⟩ := regName_spec (h a (by simp))
  obtain ⟨wb, hwb, hplainb, hregb⟩ := regName_spec (h b (by simp))
  refine ⟨_, by rw [hwa, hwb]; rfl, assemble_twoWords hplaina hplainb ?_⟩
  simp [twoOperands?, hop, hf, hrega, hregb]

theorem assemble_hlt : ∃ text, textOf? .hlt [] = some text ∧ assemble? text = some [.hlt] :=
  ⟨_, rfl, assemble_of_lex (lex_word (mnemonic_plain .hlt)) (by simp) rfl⟩

theorem assemble_disassemble {i : Instr} (h : i.WellFormed) :
    ∃ text, disassemble? i = some text ∧ assemble? text = some [i] := by
  cases i with
  | hlt => exact assemble_hlt
  | ldi a imm => exact assemble_ldi imm (h a List.mem_cons_self)
  | prn a => exact assemble_oneOperand rfl (h a List.mem_cons_self)
  | add a b => exact assemble_twoRegisters rfl nofun h
  | sub a b => exact assemble_twoRegisters rfl nofun h
  | mul a b => exact assemble_twoRegisters rfl nofun h
  | div a b => exact assemble_twoRegisters rfl nofun h
  | push a => exact assemble_oneOperand rfl (h a List.mem_cons_self)
  | pop a => exact assemble_oneOperand rfl (h a List.mem_cons_self)

end Asm

/-! ## The obligations -/

/-- Settles O6: each encoding is its opcode's byte with the operands its format has, which `decode_toByte` reads. -/
theorem decodeInvertsEncode : Obligations.DecodeInvertsEncode :=
  decode_encode

/-- Settles O7: the first byte is an opcode's, and its format says which bytes the decoder took. -/
theorem encodeInvertsDecode : Obligations.EncodeInvertsDecode :=
  fun _ _ _ h => encode_of_decode h

/-- Settles O8: a byte is illegal if it is no opcode's byte, and the fetch rejects it by name. -/
theorem everyOtherOpcodeByteIsIllegal : Obligations.EveryOtherOpcodeByteIsIllegal :=
  ⟨fun _ => ofByte_eq_none_iff_not_mem, countP_illegal, ofByte_eq_none_iff_not_mem.2 (by decide),
    fun _ => ofByte_of_topBits, fun _ hs hpc h => Machine.step_of_fetch_error hs (Machine.fetch_of_illegal hpc h)⟩

/-- Settles O10: the lexer gives back the words of the canonical text, and each word reads as its operand. -/
theorem canonicalTextAssemblesBack : Obligations.CanonicalTextAssemblesBack :=
  fun _ h => Asm.assemble_disassemble h

/-- Settles O5: the words are encodings, and 0x41 is no opcode. -/
theorem sampleWordsDecode : Obligations.SampleWordsDecode :=
  ⟨decode_encode .hlt [], decode_encode (.ldi 0#8 8#8) [], decode_encode (.prn 0#8) [0x01#8],
    decode_encode (.add 2#8 3#8) [], decode_encode (.sub 4#8 2#8) [], decode_encode (.mul 0#8 1#8) [],
    decode_encode (.div 2#8 4#8) [], decode_encode (.push 3#8) [], decode_encode (.pop 3#8) [],
    decode_unknown (ofByte_eq_none_iff_not_mem.2 (by decide)) []⟩

/-- Settles O9: the byte's top two bits as a quotient, and each opcode's length as its format's. -/
theorem lengthIsTheTopTwoBitsPlusOne : Obligations.LengthIsTheTopTwoBitsPlusOne := by
  refine ⟨insnLength_eq, fun ir h => ofByte_of_topBits (by omega), fun i => (encodingLength i).symm, fun op => ?_⟩
  rw [insnLength_toByte]
  cases op <;> rfl

end Sys2Proof
end

section
/-! SUPPORT. What a step runs, the order of its faults, the pc's advance, and how runs end: the proofs about
40_cycle.md. -/

namespace Sys2Proof.Machine

/-! ## The bytes at the pc and the instruction a step runs -/

/-- The bytes from an address on begin with any list of bytes that stands there below address 256. -/
theorem bytesFrom_of_get {m : Memory} {bs : List Byte} {base n : Nat} (hn : bs.length ≤ n)
    (hfit : base + bs.length ≤ 256)
    (hget : ∀ (k : Nat) (hk : k < bs.length), Memory.get m (base + k) = bs[k]) :
    Memory.bytesFrom m base n = bs ++ Memory.bytesFrom m (base + bs.length) (n - bs.length) := by
  induction bs generalizing base n with
  | nil => rfl
  | cons v vs ih =>
    simp only [List.length_cons] at hn hfit ⊢
    obtain ⟨n, rfl⟩ : ∃ n', n = n' + 1 := ⟨n - 1, by omega⟩
    have hhead : Memory.get m base = v := hget 0 (by simp)
    have htail := ih (base := base + 1) (n := n) (by omega) (by omega) fun k hk => by
      rw [Nat.add_assoc, Nat.add_comm 1 k]
      exact hget (k + 1) (by simpa using hk)
    have hbase : base < Config.memSize := by
      simp only [Config.memSize]
      omega
    rw [Memory.bytesFrom, if_pos hbase, hhead, htail, List.cons_append]
    congr 3 <;> omega

theorem encode_length_le (i : Instr) : (encode i).length ≤ 3 := by
  cases i <;> simp [encode]

section Fetching

variable {s : State} {i : Instr}

theorem fetch_of_decode {rest : List Byte} (h : decode s.window = .ok (i, rest)) : fetch s = .ok i := by
  rcases fetch_window s with ⟨j, _, hd, hf⟩ | ⟨_, _, hd, -⟩
  · cases hd.symm.trans h
    exact hf
  · cases hd.symm.trans h

theorem step_of_decode {rest : List Byte} (hs : s.status = .running)
    (h : decode s.window = .ok (i, rest)) : step s = exec i s :=
  step_of_fetch_ok hs (fetch_of_decode h)

/-- The window of a state that holds an instruction's encoding at the pc decodes to it (R44, R84). -/
theorem decode_window_of_encode (hfit : s.pc.val + (encode i).length ≤ 256)
    (hget : ∀ (k : Nat) (hk : k < (encode i).length), Memory.get s.mem (s.pc.val + k) = (encode i)[k]) :
    ∃ rest, decode s.window = .ok (i, rest) :=
  ⟨_, by rw [State.window, bytesFrom_of_get (encode_length_le i) hfit hget, decode_encode]⟩

/-- The window of a state that a table word was placed in is that word's three bytes. -/
theorem window_withFetchWord {nbits w : Nat} (hfit : s.pc.val + 3 ≤ 256) :
    (s.withFetchWord nbits w).window = tableBytes nbits w := by
  have hlen : (tableBytes nbits w).length = 3 := rfl
  have htake : (tableBytes nbits w).take (Config.memSize - s.pc.val) = tableBytes nbits w :=
    List.take_of_length_le (by simp only [Config.memSize]; omega)
  have hget : ∀ (k : Nat) (hk : k < (tableBytes nbits w).length),
      Memory.get (s.withFetchWord nbits w).mem (s.pc.val + k) = (tableBytes nbits w)[k] := by
    intro k hk
    simp [State.withFetchWord, htake, get_storeBytes, hk]
  exact (bytesFrom_of_get hlen.le (by omega) hget).trans (List.append_nil _)

theorem decodeTableWord_eq_some {nbits w : Nat} (h : decodeTableWord nbits w = some i) :
    ∃ rest, decode (tableBytes nbits w) = .ok (i, rest) := by
  unfold decodeTableWord at h
  split at h
  · next j rest hd =>
    cases h
    exact ⟨rest, hd⟩
  · cases h

end Fetching

/-- Settles O11: the fetch reads what the decoder reads from the bytes at the pc. -/
theorem stepRunsDecodedInstruction : Obligations.StepRunsDecodedInstruction :=
  fun _ _ _ => step_of_decode

/-- Settles O12: the bytes at the pc begin with the encoding, which decodes to its instruction. -/
theorem stepRunsEncodedInstruction : Obligations.StepRunsEncodedInstruction := by
  intro s i hs hfit hget
  obtain ⟨rest, hd⟩ := decode_window_of_encode hfit hget
  exact step_of_decode hs hd

/-- Settles O13: the placed word's bytes are the bytes at the pc of the state it was placed in. -/
theorem placedWordIsWhatTheNextStepRuns : Obligations.PlacedWordIsWhatTheNextStepRuns := by
  intro s nbits w i hfit h
  obtain ⟨rest, hd⟩ := decodeTableWord_eq_some h
  exact step_of_decode rfl ((window_withFetchWord hfit).symm ▸ hd)

/-! ## The order of a step's faults -/

section Priority

variable {s : State} {op : Opcode} {a b : Byte}

/-- A register operand A that is none faults before anything else an instruction does once its bytes fit
(R88 item 4): every meaning but HLT's begins with these two checks. -/
theorem finish_invalid_a {len : Nat} {k : Pc → RegIx → Except Fault State}
    (hfit : s.pc.val + len < 257) (ha : 8 ≤ a.toNat) :
    s.finish (do let p ← s.pcAfter len; let r ← regOperand a; k p r) =
      .next (s.takeFault (.invalidRegister a)) := by
  rw [pcAfter_fits s hfit, regOperand_invalid ha]
  rfl

theorem exec_invalid_a (hop : op ≠ .hlt) (hfit : s.pc.val + op.format.length ≤ 256) (ha : 8 ≤ a.toNat) :
    exec (op.build a b) s = .next (s.takeFault (.invalidRegister a)) := by
  have hlt := Nat.lt_succ_of_le hfit
  cases op with
  | hlt => exact absurd rfl hop
  | ldi | prn | add | sub | mul | div | push | pop => exact finish_invalid_a hlt ha

theorem alu_invalid_b (aop : AluOp) (hfit : s.pc.val + 3 ≤ 256) (ha : a.toNat < 8) (hb : 8 ≤ b.toNat) :
    alu aop a b s = .next (s.takeFault (.invalidRegister b)) := by
  rcases alu_cases s a b aop with ⟨h, -⟩ | ⟨-, h, -⟩ | ⟨-, -, -, e⟩ | ⟨-, -, rb, -, -, h, -⟩
  · omega
  · omega
  · exact e
  · have := rb.isLt
    omega

theorem exec_invalid_b (hop : isAlu op = true) (hfit : s.pc.val + op.format.length ≤ 256)
    (ha : a.toNat < 8) (hb : 8 ≤ b.toNat) :
    exec (op.build a b) s = .next (s.takeFault (.invalidRegister b)) := by
  cases op with
  | add => exact alu_invalid_b .add hfit ha hb
  | sub => exact alu_invalid_b .sub hfit ha hb
  | mul => exact alu_invalid_b .mul hfit ha hb
  | div => exact alu_invalid_b .div hfit ha hb
  | hlt | ldi | prn | push | pop => cases hop

theorem exec_div_zero (hfit : s.pc.val + 3 ≤ 256) (hw : (Instr.div a b).WellFormed)
    (hz : ∀ r : RegIx, r.val = b.toNat → s.reg r = 0#8) :
    exec (.div a b) s = .next (s.takeFault .divisionByZero) := by
  have ha : a.toNat < 8 := hw a (by simp [Instr.regOperands])
  have hb : b.toNat < 8 := hw b (by simp [Instr.regOperands])
  rcases alu_cases s a b .div with ⟨h, -⟩ | ⟨-, h, -⟩ | ⟨-, -, h, -⟩ | ⟨p, ra, rb, -, -, hrb, h⟩
  · omega
  · omega
  · omega
  · rw [hz rb hrb, aluResult_div_zero] at h
    rcases h with ⟨_, h, -⟩ | ⟨_, h, e⟩
    · cases h
    · cases h
      exact e

theorem exec_push_empty (hfit : s.pc.val + 2 ≤ 256) (hw : (Instr.push a).WellFormed) (hsp : s.sp = 0#8) :
    exec (.push a) s = .next (s.takeFault (.outOfBounds (-1))) := by
  have ha : a.toNat < 8 := hw a (by simp [Instr.regOperands])
  rcases execPush_cases s a with ⟨h, -⟩ | ⟨-, h, -⟩ | ⟨-, -, -, e⟩ | ⟨-, -, -, -, h, -⟩
  · omega
  · omega
  · exact e
  · simp [hsp] at h

theorem exec_pop_full (hfit : s.pc.val + 2 ≤ 256) (hw : (Instr.pop a).WellFormed) (hsp : s.sp = 255#8) :
    exec (.pop a) s = .next (s.takeFault (.outOfBounds 256)) := by
  have ha : a.toNat < 8 := hw a (by simp [Instr.regOperands])
  rcases execPop_cases s a with ⟨h, -⟩ | ⟨-, h, -⟩ | ⟨-, -, -, e⟩ | ⟨-, -, -, -, h, -⟩
  · omega
  · omega
  · exact e
  · simp [hsp] at h

/-- A well-formed instruction that fits completes unless its own cause of a fault is there (R88 item 5). -/
theorem exec_completes (hs : s.status = .running) (hfit : s.pc.val + op.format.length ≤ 256)
    (hw : (op.build a b).WellFormed)
    (hdiv : op = .div → ∀ r : RegIx, r.val = b.toNat → s.reg r ≠ 0#8)
    (hpush : op = .push → s.sp ≠ 0#8) (hpop : op = .pop → s.sp ≠ 255#8) :
    ∃ t, exec (op.build a b) s = .next t ∧ t.NotFaulted := by
  rcases exec_cases (op.build a b) s with ⟨t, e, c⟩ | ⟨f, -, hf⟩
  · exact ⟨t, e, c.notFaulted hs⟩
  · exfalso
    cases hf with
    | past h =>
      rw [build_opcode] at h
      omega
    | register c _ hc h8 =>
      have := hw c hc
      omega
    | divide a' b' r hi hr hz =>
      obtain rfl : op = .div := eq_opcode_of_build_eq hi
      cases hi
      exact hdiv rfl r hr hz
    | push _ hi hz => exact hpush (eq_opcode_of_build_eq hi) hz
    | pop _ hi hz => exact hpop (eq_opcode_of_build_eq hi) hz

/-- The operand bytes of an opcode in memory: one of them lies past address 255 (R84), or the step is the
instruction's meaning. -/
theorem step_of_opcodeAt (hs : s.status = .running) (hpc : s.pc.val < 256)
    (hb : s.opcodeAt s.pc.val = op.toByte) :
    (256 < s.pc.val + op.format.length → step s = .next (s.takeFault (.outOfBounds 256))) ∧
    (s.pc.val + op.format.length ≤ 256 →
      step s = exec (op.build (s.opcodeAt (s.pc.val + 1)) (s.opcodeAt (s.pc.val + 2))) s) := by
  rcases step_running_cases hs with ⟨op', h, hb', e⟩ | ⟨h, -⟩ | ⟨-, h, -⟩ | ⟨op', -, hb', h, e⟩
  · obtain rfl := toByte_inj.1 (hb'.symm.trans hb)
    exact ⟨fun h' => absurd h (by omega), fun _ => e⟩
  · omega
  · exact absurd hb (ofByte_eq_none.1 h op)
  · obtain rfl := toByte_inj.1 (hb'.symm.trans hb)
    exact ⟨fun _ => e, fun h' => absurd h (by omega)⟩

end Priority

/-- Settles O17: items 1 to 3 are the fetch's faults; past them the step is the meaning of the instruction
at the pc, whose faults come in the order A, B, its own. -/
theorem faultsOfAStepHaveTheirPriority : Obligations.FaultsOfAStepHaveTheirPriority := by
  intro s hs ir A B
  refine ⟨fun hpc => ?_, fun hpc h => step_of_fetch_error hs (fetch_of_illegal hpc h), fun op hpc hop => ?_⟩
  · rcases fetch_cases s with ⟨-, hf⟩ | ⟨h, -⟩ | ⟨-, h, -⟩
    · rw [step_of_fetch_error hs hf, hpc]
      rfl
    all_goals omega
  · have hb : ir = op.toByte := ofByte_eq_some.1 hop
    have hlen : insnLength ir = op.format.length := by rw [hb, insnLength_toByte]
    obtain ⟨hpast, hfits⟩ := step_of_opcodeAt hs hpc hb
    rw [hlen]
    refine ⟨fun h2 h => ?_, fun h3 h1 h => ?_, fun hfit => ?_⟩
    · rw [hpast (by omega), show (s.pc.val : Int) + 1 = 256 by omega]
    · rw [hpast (by omega), show (s.pc.val : Int) + 2 = 256 by omega]
    · rw [hfits hfit]
      refine ⟨fun hne => exec_invalid_a hne hfit, fun hal => exec_invalid_b hal hfit, fun hw => ?_⟩
      refine ⟨?_, ?_, ?_, exec_completes hs hfit hw⟩
      · rintro rfl
        exact exec_div_zero hfit hw
      · rintro rfl
        exact exec_push_empty hfit hw
      · rintro rfl
        exact exec_pop_full hfit hw

/-! ## The pc's advance -/

section Progress

variable {s t u : State}

theorem step_pc (hs : s.status = .running) (e : step s = .next t) (hn : t.NotFaulted) :
    t.pc.val = s.pc.val + insnLength (s.opcodeAt s.pc.val) := by
  rcases step_cases hs e with ⟨op, -, hb, c⟩ | ⟨f, rfl, -⟩
  · rw [c.pc, build_opcode, hb, insnLength_toByte]
  · exact absurd rfl (hn f)

theorem step_faulted_pc {f : Fault} (hs : s.status = .running) (e : step s = .next t)
    (hf : t.status = .faulted f) : t.pc = s.pc := by
  rcases step_cases hs e with ⟨op, -, -, c⟩ | ⟨g, rfl, -⟩
  · exact absurd hf (c.notFaulted hs f)
  · rfl

theorem step_pc_lt (hs : s.status = .running) (e : step s = .next t) (hn : t.NotFaulted) :
    s.pc.val < t.pc.val := by
  rw [step_pc hs e hn, insnLength]
  omega

/-! ## Runs -/

theorem runFor_succ {k : Nat} (hs : s.status = .running) (e : step s = .next u) :
    runFor (k + 1) s = runFor k u := by
  simp only [runFor, hs, e]

/-- What every step keeps, every run keeps. -/
theorem runFor_preserves {P : State → Prop} (hstep : ∀ s t, P s → step s = .next t → P t) {k : Nat}
    (h : P s) (e : runFor k s = .next t) : P t := by
  induction k generalizing s with
  | zero =>
    cases e
    exact h
  | succ k ih =>
    by_cases hs : s.status = .running
    · obtain ⟨u, eu⟩ := step_answers_next s
      exact ih (hstep s u h eu) ((runFor_succ hs eu).symm.trans e)
    · cases (runFor_stopped hs _).symm.trans e
      exact h

/-- A run goes on from the state a shorter one reached. -/
theorem runFor_add {j : Nat} (k : Nat) (e : runFor j s = .next t) : runFor (j + k) s = runFor k t := by
  induction j generalizing s with
  | zero =>
    cases e
    rw [Nat.zero_add]
  | succ j ih =>
    by_cases hs : s.status = .running
    · obtain ⟨u, eu⟩ := step_answers_next s
      rw [Nat.succ_add, runFor_succ hs eu]
      exact ih ((runFor_succ hs eu).symm.trans e)
    · cases (runFor_stopped hs _).symm.trans e
      rw [runFor_stopped hs, runFor_stopped hs]

/-- The steps left are bounded by the addresses left: each completed step raises the pc, which is at most
256 (R97). -/
theorem runFor_stops {k : Nat} (h : 257 ≤ s.pc.val + k) : ∃ t, runFor k s = .next t ∧ t.Stopped := by
  induction k generalizing s with
  | zero =>
    have := s.pc.isLt
    omega
  | succ k ih =>
    by_cases hs : s.status = .running
    · obtain ⟨u, eu⟩ := step_answers_next s
      rw [runFor_succ hs eu]
      by_cases hu : u.status = .running
      · have := step_pc_lt hs eu (fun f hf => by cases hu.symm.trans hf)
        exact ih (by omega)
      · exact ⟨u, runFor_stopped hu k, hu⟩
    · exact ⟨s, runFor_stopped hs _, hs⟩

theorem run_stops (s : State) : ∃ t, run s = .next t ∧ t.Stopped :=
  runFor_stops (Nat.le_add_left 257 s.pc.val)

/-- A machine in Halted has HLT's opcode in the byte before the pc (R100). -/
def State.HaltedAfterHlt (s : State) : Prop :=
  s.status = .halted → 1 ≤ s.pc.val ∧ s.opcodeAt (s.pc.val - 1) = 0x01#8

/-- Only an HLT halts; it advances the pc past itself and leaves memory. -/
theorem State.HaltedAfterHlt.step (h : s.HaltedAfterHlt) (e : Machine.step s = .next t) :
    t.HaltedAfterHlt := by
  by_cases hs : s.status = .running
  · intro ht
    rcases step_cases hs e with ⟨op, -, hb, c⟩ | ⟨f, rfl, -⟩
    · obtain rfl : op = .hlt := build_eq_hlt.1 ((c.halted_iff hs).1 ht)
      have hpc : t.pc.val = s.pc.val + 1 := c.pc
      have hmem : t.mem = s.mem := c.mem_eq nofun
      refine ⟨by omega, ?_⟩
      rw [hpc, Nat.add_sub_cancel, State.opcodeAt, hmem]
      exact hb
    · cases ht
  · cases (step_stopped hs).symm.trans e
    exact h

end Progress

/-- Settles O16: a completed instruction advances the pc by its format's length, which the type bounds. -/
theorem completedStepAdvancesThePc : Obligations.CompletedStepAdvancesThePc :=
  fun _ t hs e => ⟨fun hn => ⟨step_pc hs e hn, Nat.le_of_lt_succ t.pc.isLt⟩, fun _ => step_faulted_pc hs e⟩

/-- Settles O46: 257 steps leave no address to advance to, and a stopped machine stays as it is. -/
theorem everyRunEndsWithin257Steps : Obligations.EveryRunEndsWithin257Steps := by
  refine ⟨fun s t => step_pc_lt, run_stops, fun s k => ?_⟩
  obtain ⟨t, e, hstop⟩ := run_stops s
  rw [runFor_add k e, e, runFor_stopped hstop]

/-- Settles O47: the run stops, and both the invariant and the HLT before a halted pc are kept by its steps. -/
theorem safeRunsEndAtHlt : Obligations.SafeRunsEndAtHlt := by
  intro s t hinv hs e
  cases ht : t.status with
  | running =>
    obtain ⟨u, eu, hstop⟩ := run_stops s
    cases eu.symm.trans e
    exact absurd ht hstop
  | faulted f => exact .inl ⟨f, rfl⟩
  | halted =>
    have hend : t.Inv := hinv.runFor e
    have hpc : t.HaltedAfterHlt :=
      runFor_preserves (fun _ _ h => h.step) (fun h => by cases hs.symm.trans h) e
    have hnf : t.NotFaulted := fun f hf => by cases ht.symm.trans hf
    have hcount := hend.haltNotices
    rw [if_pos ht] at hcount
    exact .inr ⟨rfl, ⟨t, e, hnf⟩, hcount, hend.haltNoticeLast ht, hpc ht⟩

/-- Settles O15: no step is enabled outside Running. -/
theorem stoppedMachineStaysAsItIs : Obligations.StoppedMachineStaysAsItIs := by
  intro s h
  have hs : s.Stopped := by
    rcases h with h | ⟨f, h⟩ <;> simp [h]
  exact ⟨step_stopped hs, runFor_stopped hs _, runFor_stopped hs⟩

end Sys2Proof.Machine
end

section
/-! SUPPORT. HLT, the one control instruction: the proof about 41_control.md. -/

namespace Sys2Proof.Machine

/-- Settles O24: HLT's one byte fits, so the pc's advance cannot fail, and no step is enabled from the Halted state
it answers. -/
theorem hltHaltsAndAdvances : Obligations.HltHaltsAndAdvances := by
  refine ⟨rfl, ofByte_eq_none_iff_not_mem.2 (by decide), ofByte_of_topBits (by decide), fun s hfit => ?_⟩
  rcases execHlt_cases s with ⟨hpast, -⟩ | ⟨p, hp, e⟩
  · omega
  · exact ⟨_, e, rfl, rfl, rfl, hp, fun _ => rfl, rfl, step_stopped nofun⟩

end Sys2Proof.Machine
end

section
/-! SUPPORT. LDI and PRN: the proofs about 42_data_movement.md, and the fault of an instruction that does not
fit, which every family shares. -/

namespace Sys2Proof.Machine

section Past

variable {s : State} {i : Instr}

/-- An advance past address 256 faults before anything else an instruction does: every meaning begins with it
(R84, R86). -/
theorem finish_past {len : Nat} {k : Pc → Except Fault State} (h : 256 < s.pc.val + len) :
    s.finish (do let p ← s.pcAfter len; k p) = .next (s.takeFault (.outOfBounds 256)) := by
  rw [pcAfter_past s h]
  rfl

theorem exec_past (h : 256 < s.pc.val + i.opcode.format.length) :
    exec i s = .next (s.takeFault (.outOfBounds 256)) := by
  cases i with
  | hlt | ldi | prn | add | sub | mul | div | push | pop => exact finish_past h

/-- The operand byte that a three-byte form lacks: A at 255, B at 254. Both lie at address 256 (R84). -/
theorem exec_past_of_format_F2 (hF : i.opcode.format = .F2) :
    (s.pc.val = 255 → exec i s = .next (s.takeFault (.outOfBounds ((s.pc.val : Int) + 1)))) ∧
    (s.pc.val = 254 → exec i s = .next (s.takeFault (.outOfBounds ((s.pc.val : Int) + 2)))) := by
  have past (h : 256 < s.pc.val + 3) : exec i s = .next (s.takeFault (.outOfBounds 256)) :=
    exec_past (by rwa [hF])
  refine ⟨fun h => ?_, fun h => ?_⟩
  · rw [past (by omega), show (s.pc.val : Int) + 1 = 256 by omega]
  · rw [past (by omega), show (s.pc.val : Int) + 2 = 256 by omega]

end Past

section Completes

variable {s : State} {a : Byte}

theorem exec_ldi_completes (imm : Byte) (ha : a.toNat < 8) (hfit : s.pc.val + 3 ≤ 256) :
    ∃ p : Pc, p.val = s.pc.val + 3 ∧
      exec (.ldi a imm) s = .next { s.setReg ⟨a.toNat, ha⟩ imm with pc := p } := by
  rcases execLdi_cases s a imm with ⟨h, -⟩ | ⟨-, h, -⟩ | ⟨p, r, hp, hr, e⟩
  · omega
  · omega
  · obtain rfl : r = ⟨a.toNat, ha⟩ := Fin.ext hr
    exact ⟨p, hp, e⟩

theorem exec_prn_completes (ha : a.toNat < 8) (hfit : s.pc.val + 2 ≤ 256) :
    ∃ p : Pc, p.val = s.pc.val + 2 ∧
      exec (.prn a) s = .next { s.emit (.print (s.reg ⟨a.toNat, ha⟩)) with pc := p } := by
  rcases execPrn_cases s a with ⟨h, -⟩ | ⟨-, h, -⟩ | ⟨p, r, hp, hr, e⟩
  · omega
  · omega
  · obtain rfl : r = ⟨a.toNat, ha⟩ := Fin.ext hr
    exact ⟨p, hp, e⟩

end Completes

/-- Settles O25: where A names a register and the three bytes fit, LDI is one register write; its faults are
those of the bytes it lacks and of the A that is no register. -/
theorem ldiLoadsTheImmediate : Obligations.LdiLoadsTheImmediate := by
  intro a imm s
  obtain ⟨past255, past254⟩ := exec_past_of_format_F2 (s := s) (i := .ldi a imm) rfl
  refine ⟨rfl, fun ha hfit => ?_, past255, past254, exec_invalid_a (op := .ldi) nofun⟩
  obtain ⟨p, hp, e⟩ := exec_ldi_completes imm ha hfit
  exact ⟨_, e, reg_setReg_same s _ imm, fun r hr => reg_setReg_other s _ imm (Fin.ne_of_val_ne hr), hp,
    rfl, rfl, rfl⟩

/-- Settles O26: where A names a register and both bytes fit, PRN is one emission; a fault it takes changes the
status alone (R162). -/
theorem prnPrintsTheRegister : Obligations.PrnPrintsTheRegister := by
  intro a s
  refine ⟨rfl, fun ha hfit => ?_, fun h => exec_past ?_, exec_invalid_a (op := .prn) (b := 0#8) nofun,
    takeFault_out s⟩
  · obtain ⟨p, hp, e⟩ := exec_prn_completes ha hfit
    exact ⟨_, e, rfl, fun _ => rfl, hp, rfl, rfl⟩
  · show 256 < s.pc.val + 2
    omega

end Sys2Proof.Machine
end

section
/-! SUPPORT. The ALU's effect and its faults, said once for the four operations: the proofs about 43_alu.md. -/

namespace Sys2Proof.Machine

section Alu

variable {s : State} {a b : Byte}

/-- The ALU's template (R120) where its three bytes fit and both operands name a register: one register write and
the pc's advance, whatever the operation. -/
theorem alu_effect {op : AluOp} {v : Byte} (ha : a.toNat < 8) (hb : b.toNat < 8) (hfit : s.pc.val + 3 ≤ 256)
    (hv : aluResult op (s.reg ⟨a.toNat, ha⟩) (s.reg ⟨b.toNat, hb⟩) = .ok v) :
    ∃ t, alu op a b s = .next t ∧ t.reg ⟨a.toNat, ha⟩ = v ∧
      (∀ r : RegIx, r.val ≠ a.toNat → t.reg r = s.reg r) ∧
      t.pc.val = s.pc.val + 3 ∧ t.mem = s.mem ∧ t.status = s.status ∧ t.out = s.out := by
  have hlt : s.pc.val + 3 < 257 := Nat.lt_succ_of_le hfit
  have e : alu op a b s = .next { s.setReg ⟨a.toNat, ha⟩ v with pc := ⟨s.pc.val + 3, hlt⟩ } := by
    simp [alu, pcAfter_fits s hlt, regOperand_valid ha, regOperand_valid hb, hv]
  exact ⟨_, e, reg_setReg_same s _ v, fun r hr => reg_setReg_other s _ v (Fin.ne_of_val_ne hr), rfl,
    rfl, rfl, rfl⟩

/-- The faults that every ALU instruction shares: a missing operand byte, then A, then B (R88 items 3 and 4). -/
theorem exec_alu_faults {op : Opcode} (hop : isAlu op = true) :
    (s.pc.val = 255 →
      exec (op.build a b) s = .next (s.takeFault (.outOfBounds ((s.pc.val : Int) + 1)))) ∧
    (s.pc.val = 254 →
      exec (op.build a b) s = .next (s.takeFault (.outOfBounds ((s.pc.val : Int) + 2)))) ∧
    (s.pc.val + 3 ≤ 256 → 8 ≤ a.toNat →
      exec (op.build a b) s = .next (s.takeFault (.invalidRegister a))) ∧
    (s.pc.val + 3 ≤ 256 → a.toNat < 8 → 8 ≤ b.toNat →
      exec (op.build a b) s = .next (s.takeFault (.invalidRegister b))) := by
  obtain ⟨hF, hhlt⟩ : op.format = .F2 ∧ op ≠ .hlt := by
    cases op with
    | add | sub | mul | div => exact ⟨rfl, nofun⟩
    | hlt | ldi | prn | push | pop => cases hop
  have hlen : op.format.length = 3 := by rw [hF]; rfl
  obtain ⟨past255, past254⟩ := exec_past_of_format_F2 (s := s) (i := op.build a b) (by rwa [build_opcode])
  exact ⟨past255, past254, fun hfit => exec_invalid_a hhlt (by rwa [hlen]),
    fun hfit => exec_invalid_b hop (by rwa [hlen])⟩

/-- `exec_div_zero` at the one register that B names. -/
theorem exec_div_by_zero_register (ha : a.toNat < 8) (hb : b.toNat < 8) (hfit : s.pc.val + 3 ≤ 256)
    (hz : s.reg ⟨b.toNat, hb⟩ = 0#8) :
    exec (.div a b) s = .next (s.takeFault .divisionByZero) := by
  refine exec_div_zero hfit (by simp [Instr.WellFormed, Instr.regOperands, ha, hb]) fun r hr => ?_
  obtain rfl : r = ⟨b.toNat, hb⟩ := Fin.ext hr
  exact hz

end Alu

/-! ## One instruction each -/

/-- Settles O27: the sum of two bytes reads as the sum of their values modulo 256. -/
theorem addIsTheSumModulo256 : Obligations.AddIsTheSumModulo256 := by
  refine fun a b s => ⟨rfl, fun ha hb hfit => ?_, exec_alu_faults (op := .add) rfl⟩
  obtain ⟨t, e, hreg, frame⟩ := alu_effect ha hb hfit (aluResult_add _ _)
  exact ⟨t, e, by rw [hreg, BitVec.toNat_add], frame⟩

/-- Settles O28: the result is the exact integer difference, wrapped, so it reads as the non-negative remainder. -/
theorem subIsTheDifferenceModulo256 : Obligations.SubIsTheDifferenceModulo256 := by
  refine fun a b s => ⟨rfl, fun ha hb hfit => ?_, exec_alu_faults (op := .sub) rfl⟩
  obtain ⟨t, e, hreg, frame⟩ := alu_effect (op := .sub) ha hb hfit rfl
  exact ⟨t, e, by rw [hreg, wrap_toNat], frame⟩

/-- Settles O29: the product of two bytes reads as the product of their values modulo 256. -/
theorem mulIsTheProductModulo256 : Obligations.MulIsTheProductModulo256 := by
  refine fun a b s => ⟨rfl, fun ha hb hfit => ?_, exec_alu_faults (op := .mul) rfl⟩
  obtain ⟨t, e, hreg, frame⟩ := alu_effect ha hb hfit (aluResult_mul _ _)
  exact ⟨t, e, by rw [hreg, BitVec.toNat_mul], frame⟩

/-- Settles O30: a divisor other than 0 gives the quotient, which fits in a byte; 0 is the one fault of DIV's own. -/
theorem divIsTheTruncatedQuotient : Obligations.DivIsTheTruncatedQuotient := by
  intro a b s
  obtain ⟨past255, past254, invalidA, invalidB⟩ := exec_alu_faults (s := s) (a := a) (b := b) (op := .div) rfl
  refine ⟨rfl, fun ha hb hfit hz => ?_, past255, past254, invalidA, invalidB,
    fun hb hfit ha => exec_div_by_zero_register ha hb hfit⟩
  obtain ⟨t, e, hreg, frame⟩ := alu_effect ha hb hfit (aluResult_div _ hz)
  have hquot : (t.reg ⟨a.toNat, ha⟩).toNat = (s.reg ⟨a.toNat, ha⟩).toNat / (s.reg ⟨b.toNat, hb⟩).toNat := by
    rw [hreg, BitVec.toNat_udiv]
  exact ⟨t, e, hquot, hquot ▸ Nat.div_le_self _ _, frame⟩

/-! ## Both operands one register -/

/-- Settles O31: the ALU reads both operands before it writes, so with A = B each result is the operation's at one
value twice (R123). -/
theorem aluOnOneRegisterTwice : Obligations.AluOnOneRegisterTwice := by
  refine fun a ha s hfit => ⟨?add, ?sub, ?mul, fun hz => ?div, exec_div_by_zero_register ha ha hfit⟩
  case add =>
    obtain ⟨t, e, hreg, -⟩ := alu_effect ha ha hfit (aluResult_add _ _)
    exact ⟨t, e, by rw [hreg, BitVec.toNat_add, two_mul]⟩
  case sub =>
    obtain ⟨t, e, hreg, -⟩ := alu_effect ha ha hfit (aluResult_sub _ _)
    exact ⟨t, e, by rw [hreg, BitVec.sub_self]⟩
  case mul =>
    obtain ⟨t, e, hreg, -⟩ := alu_effect ha ha hfit (aluResult_mul _ _)
    exact ⟨t, e, by rw [hreg, BitVec.toNat_mul, pow_two]⟩
  case div =>
    obtain ⟨t, e, hreg, -⟩ := alu_effect ha ha hfit (aluResult_div _ hz)
    exact ⟨t, e, by rw [hreg, BitVec.udiv_self, if_neg (by simpa using hz)]⟩

/-! ## Frame -/

/-- Settles O34: A is the one register these five write, and none of them is a HLT, a PRN or a PUSH. -/
theorem frameOfTheRegisterWriters : Obligations.FrameOfTheRegisterWriters := by
  intro a b i s t hi e
  rcases exec_next_cases e with ⟨f, rfl⟩ | c
  · exact ⟨fun _ _ => rfl, fun _ => rfl, rfl, .inr ⟨f, rfl⟩⟩
  · have hi' : regsWritten i = [a] ∧ i ≠ .hlt ∧ (∀ d, i ≠ .prn d) ∧ ∀ d, i ≠ .push d := by
      simp only [List.mem_cons, List.not_mem_nil, or_false] at hi
      rcases hi with rfl | rfl | rfl | rfl | rfl <;> simp [regsWritten]
    obtain ⟨hwritten, hhlt, hprn, hpush⟩ := hi'
    refine ⟨fun r hr => c.reg r ?_, fun _ => by rw [c.mem_eq hpush], c.out_eq hhlt hprn,
      .inl (c.status_eq hhlt)⟩
    simpa [hwritten] using hr.symm

end Sys2Proof.Machine
end

section
/-! SUPPORT. PUSH and POP, and how a sequence of them moves the stack pointer: the proofs about 44_stack.md. -/

namespace Sys2Proof.Machine

section Stack

variable {s t : State} {i : Instr} {op : Opcode} {a b : Byte} {is : List Instr}

/-! ## The faults of a two-byte form -/

/-- The faults that every two-byte form shares: a missing operand byte, then A (R88 items 3 and 4). -/
theorem exec_faults_of_format_F1 (hF : op.format = .F1) :
    (s.pc.val = 255 → exec (op.build a b) s = .next (s.takeFault (.outOfBounds 256))) ∧
    (s.pc.val + 2 ≤ 256 → 8 ≤ a.toNat → exec (op.build a b) s = .next (s.takeFault (.invalidRegister a))) := by
  have hhlt : op ≠ .hlt := by rintro rfl; cases hF
  have hlen : op.format.length = 2 := by rw [hF]; rfl
  refine ⟨fun h => exec_past ?_, fun hfit => exec_invalid_a hhlt (by rwa [hlen])⟩
  rw [build_opcode, hlen]
  omega

/-! ## The completed execution -/

theorem sp_sub_one_toNat (h : 1 ≤ s.sp.toNat) : (s.sp - 1#8).toNat = s.sp.toNat - 1 :=
  BitVec.toNat_sub_of_le h

theorem sp_add_one_toNat (h : s.sp.toNat ≤ 254) : (s.sp + 1#8).toNat = s.sp.toNat + 1 :=
  BitVec.toNat_add_of_lt (Nat.succ_lt_succ (Nat.lt_succ_of_le h))

theorem exec_push_completes (ha : a.toNat < 8) (hfit : s.pc.val + 2 ≤ 256) (hsp : 1 ≤ s.sp.toNat) :
    ∃ p : Pc, p.val = s.pc.val + 2 ∧
      exec (.push a) s = .next { s.setReg 7 (s.sp - 1#8) with
        mem := Memory.set s.mem (s.sp.toNat - 1)
          (if a.toNat = 7 then s.sp - 1#8 else s.reg ⟨a.toNat, ha⟩)
        pc := p } := by
  rcases execPush_cases s a with ⟨h, -⟩ | ⟨-, h, -⟩ | ⟨-, -, h, -⟩ | ⟨p, r, hp, hr, -, e⟩
  · omega
  · omega
  · simp [h] at hsp
  · obtain rfl : r = ⟨a.toNat, ha⟩ := Fin.ext hr
    simp only [Fin.ext_iff] at e
    exact ⟨p, hp, e⟩

theorem exec_pop_completes (ha : a.toNat < 8) (hfit : s.pc.val + 2 ≤ 256) (hsp : s.sp.toNat ≤ 254) :
    ∃ p : Pc, p.val = s.pc.val + 2 ∧
      exec (.pop a) s = .next
        { (s.setReg ⟨a.toNat, ha⟩ (Memory.get s.mem s.sp.toNat)).setReg 7 (s.sp + 1#8) with pc := p } := by
  rcases execPop_cases s a with ⟨h, -⟩ | ⟨-, h, -⟩ | ⟨-, -, h, -⟩ | ⟨p, r, hp, hr, -, e⟩
  · omega
  · omega
  · simp [h] at hsp
  · obtain rfl : r = ⟨a.toNat, ha⟩ := Fin.ext hr
    exact ⟨p, hp, e⟩

/-! ## The stack pointer after an execution that did not fault -/

theorem exec_ne_takeFault {f : Fault} (e : exec i s = .next t) (hn : t.NotFaulted) :
    exec i s ≠ .next (s.takeFault f) := by
  intro e'
  cases e.symm.trans e'
  exact hn f rfl

theorem exec_push_sp (e : exec (.push a) s = .next t) (hn : t.NotFaulted) :
    t.sp.toNat + 1 = s.sp.toNat := by
  rcases execPush_cases s a with ⟨-, e'⟩ | ⟨-, -, e'⟩ | ⟨-, -, -, e'⟩ | ⟨p, r, -, -, hsp, e'⟩
  · exact absurd e' (exec_ne_takeFault e hn)
  · exact absurd e' (exec_ne_takeFault e hn)
  · exact absurd e' (exec_ne_takeFault e hn)
  · cases e.symm.trans e'
    show ((s.setReg 7 (s.sp - 1#8)).reg 7).toNat + 1 = s.sp.toNat
    rw [reg_setReg_same, sp_sub_one_toNat hsp, Nat.sub_add_cancel hsp]

theorem exec_pop_sp (e : exec (.pop a) s = .next t) (hn : t.NotFaulted) :
    t.sp.toNat = s.sp.toNat + 1 := by
  rcases execPop_cases s a with ⟨-, e'⟩ | ⟨-, -, e'⟩ | ⟨-, -, -, e'⟩ | ⟨p, r, -, -, hsp, e'⟩
  · exact absurd e' (exec_ne_takeFault e hn)
  · exact absurd e' (exec_ne_takeFault e hn)
  · exact absurd e' (exec_ne_takeFault e hn)
  · cases e.symm.trans e'
    show ((State.setReg _ 7 (s.sp + 1#8)).reg 7).toNat = s.sp.toNat + 1
    rw [reg_setReg_same, sp_add_one_toNat hsp]

/-- The stack's account of one instruction of R145's sequences: PUSH takes one from the stack pointer, POP gives
one, and the ALU instructions that do not write r7 leave it. -/
theorem exec_sp (hi : StackOrAlu i) (e : exec i s = .next t) (hn : t.NotFaulted) :
    t.sp.toNat + (if isPush i then 1 else 0) = s.sp.toNat + (if isPop i then 1 else 0) := by
  cases i with
  | hlt | ldi | prn => exact hi.elim
  | push => exact exec_push_sp e hn
  | pop => exact exec_pop_sp e hn
  | add | sub | mul | div =>
    rcases exec_next_cases e with ⟨f, rfl⟩ | c
    · exact absurd rfl (hn f)
    · exact congrArg BitVec.toNat (c.reg 7 (List.forall_mem_singleton.2 hi))

/-! ## Sequences -/

/-- A sequence that does not fault from a running state has run its first instruction, which did not fault, and
goes on from the running state it left. -/
theorem execSeq_cons (hi : i ≠ .hlt) (hs : s.status = .running) (e : execSeq (i :: is) s = .next t)
    (hn : t.NotFaulted) :
    ∃ u, exec i s = .next u ∧ u.status = .running ∧ execSeq is u = .next t := by
  rcases exec_cases i s with ⟨u, eu, c⟩ | ⟨f, ef, -⟩
  · have hu : u.status = .running := (c.status_eq hi).trans hs
    exact ⟨u, eu, hu, by simpa only [execSeq, eu, hu] using e⟩
  · simp only [execSeq, ef, takeFault_status, Host.Outcome.next.injEq] at e
    exact absurd (congrArg State.status e.symm) (hn f)

/-- The stack's account of a whole sequence: `exec_sp` summed up over its instructions (R145). -/
theorem execSeq_sp (his : ∀ i ∈ is, StackOrAlu i) (hs : s.status = .running)
    (e : execSeq is s = .next t) (hn : t.NotFaulted) :
    t.sp.toNat + is.countP isPush = s.sp.toNat + is.countP isPop := by
  induction is generalizing s with
  | nil =>
    cases e
    rfl
  | cons i is ih =>
    obtain ⟨hi, his⟩ := List.forall_mem_cons.1 his
    have hhlt : i ≠ .hlt := by rintro rfl; exact hi
    obtain ⟨u, eu, hu, e⟩ := execSeq_cons hhlt hs e hn
    have first := exec_sp hi eu (fun f hf => by cases hu.symm.trans hf)
    have rest := ih his hu e
    rw [List.countP_cons, List.countP_cons]
    omega

end Stack

/-! ## The obligations -/

/-- Settles O32: a completed PUSH is one register write and one store below the old stack pointer, with the new
stack pointer as the stored value when A is r7. -/
theorem pushStoresBelowTheStackPointer : Obligations.PushStoresBelowTheStackPointer := by
  intro a s
  obtain ⟨past, invalid⟩ := exec_faults_of_format_F1 (s := s) (a := a) (b := 0#8) (op := .push) rfl
  refine ⟨rfl, fun ha hfit hsp => ?_, past, invalid,
    fun hfit ha => exec_push_empty hfit (List.forall_mem_singleton.2 ha)⟩
  obtain ⟨p, hp, e⟩ := exec_push_completes ha hfit hsp
  exact ⟨_, e, (congrArg BitVec.toNat (reg_setReg_same s 7 _)).trans (sp_sub_one_toNat hsp),
    fun r hr => reg_setReg_other s 7 _ hr, get_set_same _ _ _, fun c hc => get_set_other _ _ hc, hp, rfl, rfl⟩

/-- Settles O33: a completed POP writes A and then r7, so what it loads stays in A unless A is r7. -/
theorem popLoadsFromTheStackPointer : Obligations.PopLoadsFromTheStackPointer := by
  intro a s
  obtain ⟨past, invalid⟩ := exec_faults_of_format_F1 (s := s) (a := a) (b := 0#8) (op := .pop) rfl
  refine ⟨rfl, fun ha hfit hsp => ?_, past, invalid,
    fun hfit ha => exec_pop_full hfit (List.forall_mem_singleton.2 ha)⟩
  obtain ⟨p, hp, e⟩ := exec_pop_completes ha hfit hsp
  refine ⟨_, e, fun h7 => ?loaded, ?sp, fun r hra h7 => ?frame, rfl, hp, rfl, rfl⟩
  case loaded => exact (reg_setReg_other _ 7 _ (Fin.ne_of_val_ne h7)).trans (reg_setReg_same s _ _)
  case sp => exact (congrArg BitVec.toNat (reg_setReg_same _ 7 _)).trans (sp_add_one_toNat hsp)
  case frame =>
    exact (reg_setReg_other _ 7 _ h7).trans (reg_setReg_other s ⟨a.toNat, ha⟩ _ (Fin.ne_of_val_ne hra))

/-- Settles O39: the POP reads the cell the PUSH stored, so A gets its own value back; r7 goes down and up by one;
and neither writes another register. -/
theorem pushThenPopRestoresTheRegisters : Obligations.PushThenPopRestoresTheRegisters := by
  intro a s ha hfit hsp
  obtain ⟨-, push, -⟩ := pushStoresBelowTheStackPointer a s
  obtain ⟨t, et, hsp_t, hreg_t, hcell, -, hpc, hst_t, -⟩ := push ha (by omega) hsp
  obtain ⟨-, pop, -⟩ := popLoadsFromTheStackPointer a t
  change t.sp.toNat = s.sp.toNat - 1 at hsp_t
  have hlt := s.sp.isLt
  obtain ⟨u, eu, hload, hsp_u, hreg_u, -, -, hst_u, -⟩ := pop ha (by omega) (by omega)
  refine ⟨t, u, et, eu, by omega, hsp_u, fun r => ?_, hst_u.trans hst_t⟩
  by_cases h7 : r = 7
  · subst h7
    refine BitVec.eq_of_toNat_eq (?_ : (u.reg 7).toNat = s.sp.toNat)
    omega
  · by_cases hr : r.val = a.toNat
    · obtain rfl : r = ⟨a.toNat, ha⟩ := Fin.ext hr
      have ha7 : a.toNat ≠ 7 := fun h => h7 (Fin.ext h)
      rw [hload ha7, hsp_t, hcell, if_neg ha7]
    · rw [hreg_u r hr h7, hreg_t r h7]

/-- Settles O40: the stack's account of the sequence, with as many PUSHes as POPs, leaves nothing over. -/
theorem balancedStackSequenceRestoresSp : Obligations.BalancedStackSequenceRestoresSp := by
  intro is s t his hcount hs e hn
  have account := execSeq_sp his hs e hn
  rw [hcount] at account
  exact BitVec.eq_of_toNat_eq (Nat.add_right_cancel account)

end Sys2Proof.Machine
end

section
/-! SUPPORT. The faults a step takes, each traced back to its cause, and the debug port: the proofs about
60_exceptions.md. -/

namespace Sys2Proof.Machine

/-! ## A step that faults -/

section FaultedStep

variable {s t : State} {f : Fault}

/-- A completed instruction has not faulted, so a Faulted next state is the one way a fault is taken, and its
record has a cause. -/
theorem step_faulted (hs : s.status = .running) (e : step s = .next t) (hf : t.status = .faulted f) :
    t = s.takeFault f ∧ StepTakes s f := by
  rcases step_cases hs e with ⟨op, -, -, c⟩ | ⟨g, rfl, hg⟩
  · exact absurd hf (c.notFaulted hs f)
  · cases hf
    exact ⟨rfl, hg⟩

end FaultedStep

/-! ## The cause of each fault -/

section Causes

variable {s : State}

theorem regOperands_build_subset (op : Opcode) (a b : Byte) : (op.build a b).regOperands ⊆ [a, b] := by
  cases op <;> simp [Opcode.build, Instr.regOperands]

theorem StepTakes.outOfBounds_cause {addr : Int} (h : StepTakes s (.outOfBounds addr)) :
    (addr = 256 ∧ s.pc.val = 256) ∨
    (addr = 256 ∧ 256 < s.pc.val + insnLength (s.opcodeAt s.pc.val)) ∨
    (addr = -1 ∧ s.opcodeAt s.pc.val = 0x45#8 ∧ s.sp = 0#8) ∨
    (addr = 256 ∧ s.opcodeAt s.pc.val = 0x46#8 ∧ s.sp = 255#8) := by
  cases h with
  | fetch hpc => exact .inl ⟨rfl, hpc⟩
  | instr op _ _ hb h =>
    cases h with
    | past h =>
      rw [build_opcode] at h
      exact .inr (.inl ⟨rfl, by rwa [hb, insnLength_toByte]⟩)
    | push _ hi hsp => exact .inr (.inr (.inl ⟨rfl, hb.trans (toByte_eq_of_build_eq hi), hsp⟩))
    | pop _ hi hsp => exact .inr (.inr (.inr ⟨rfl, hb.trans (toByte_eq_of_build_eq hi), hsp⟩))

theorem StepTakes.invalidRegister_cause {a : Byte} (h : StepTakes s (.invalidRegister a)) :
    8 ≤ a.toNat ∧ s.opcodeAt s.pc.val ≠ 0x01#8 ∧
      (a = s.opcodeAt (s.pc.val + 1) ∨ a = s.opcodeAt (s.pc.val + 2)) := by
  refine ⟨h.infoInRange, ?_⟩
  cases h with
  | instr op _ hpc hb h =>
    refine ⟨StepTakes.opcodeAt_ne_hlt (.instr op _ hpc hb h) hpc, ?_⟩
    cases h with
    | register _ _ ha _ => simpa using regOperands_build_subset _ _ _ ha

theorem StepTakes.divisionByZero_cause (h : StepTakes s .divisionByZero) :
    s.opcodeAt s.pc.val = 0xA3#8 ∧
      ∃ r : RegIx, r.val = (s.opcodeAt (s.pc.val + 2)).toNat ∧ s.reg r = 0#8 := by
  cases h with
  | instr op _ _ hb h =>
    cases h with
    | divide a b r hi hr hz =>
      obtain rfl : op = .div := eq_opcode_of_build_eq hi
      cases hi
      exact ⟨hb, r, hr, hz⟩

theorem StepTakes.unknownOpcode_cause {ir : Byte} (h : StepTakes s (.unknownOpcode ir)) :
    ir = s.opcodeAt s.pc.val ∧ Opcode.ofByte ir = none := by
  refine ⟨?_, h.infoInRange⟩
  cases h with
  | opcode => rfl
  | instr _ _ _ _ h => cases h

end Causes

/-- Settles O18: a Faulted next state is the old one with a fault taken, and no step is enabled from it. -/
theorem faultsArePreciseAndPermanent : Obligations.FaultsArePreciseAndPermanent := by
  intro s t f hs e hf
  obtain ⟨rfl, -⟩ := step_faulted hs e hf
  have hstop : (s.takeFault f).Stopped := nofun
  exact ⟨fun _ => rfl, fun _ => rfl, rfl, rfl, rfl, step_stopped hstop, runFor_stopped hstop⟩

/-- Settles O19: the record of a Faulted next state is a fault the step takes, whose cause is known. -/
theorem faultsHaveTheirCauses : Obligations.FaultsHaveTheirCauses := by
  refine ⟨fun s t hs e => ?_, fun _ _ _ _ => ⟨rfl, rfl, rfl, rfl, rfl⟩⟩
  have takes : ∀ {f}, t.status = .faulted f → StepTakes s f := fun hf => (step_faulted hs e hf).2
  exact ⟨fun _ hf => (takes hf).outOfBounds_cause, fun _ hf => (takes hf).invalidRegister_cause,
    fun hf => (takes hf).divisionByZero_cause, fun _ hf => (takes hf).unknownOpcode_cause,
    fun n hf => (takes hf).ne_programTooLarge n rfl⟩

/-- Settles O4: the port's bound on an address is the one every memory access checks (R42). -/
theorem debugPortReadsTheState : Obligations.DebugPortReadsTheState := by
  intro s
  refine ⟨rfl, rfl, fun _ => rfl, fun a ha => ?_, fun a ha => ?_, rfl⟩
  · exact ⟨_, memRead_ofNat s.mem ha, if_pos ha⟩
  · exact if_neg (Nat.not_lt.2 ha)

/-- Settles O14: both inversion lemmas know next states only, the completed and the faulted. -/
theorem everyStepAnswersANextState : Obligations.EveryStepAnswersANextState :=
  ⟨exec_answers_next, step_answers_next⟩

end Sys2Proof.Machine
end

section
/-! SUPPORT. Reset, load and the host's session: the proofs about 70_reset_and_hazards.md. -/

namespace Sys2Proof.Machine

/-! ## The reset state -/

section Reset

variable (init : InitRegs)

theorem resetWith_reg_sp : (State.resetWith init).reg 7 = 0xF4#8 :=
  Vector.getElem_push_eq

theorem resetWith_reg_castSucc (k : Fin 7) : (State.resetWith init).reg k.castSucc = init[k] :=
  Vector.getElem_push_lt k.isLt

/-- With nothing loaded the first fetch reads 0x00, which is no opcode (R184). -/
theorem step_resetWith :
    step (State.resetWith init) = .next ((State.resetWith init).takeFault (.unknownOpcode 0x00#8)) :=
  have illegal : Opcode.ofByte 0x00#8 = none := by decide
  step_of_fetch_error rfl (fetch_of_illegal (Nat.zero_lt_succ 255) illegal)

theorem run_resetWith :
    run (State.resetWith init) = .next ((State.resetWith init).takeFault (.unknownOpcode 0x00#8)) :=
  (runFor_succ rfl (step_resetWith init)).trans (runFor_stopped (by simp) 256)

end Reset

/-- Settles O1, field by field; no cell is listed in the reset memory. -/
theorem resetEstablishesTheSpecState : Obligations.ResetEstablishesTheSpecState := by
  intro init
  refine ⟨fun a ha => ?_, resetWith_reg_sp init, resetWith_reg_castSucc init, rfl, rfl, rfl, rfl, fun _ => rfl⟩
  rw [memRead_ofNat _ ha]
  rfl

/-- Settles O43, by the invariant of every reset state. -/
theorem resetMeetsTheInvariant : Obligations.ResetMeetsTheInvariant :=
  ⟨resetWith_inv, resetWith_inv _⟩

/-! ## Loading an image -/

section Load

variable {image : List Byte} (s : State)

theorem load_of_le (h : image.length ≤ 256) :
    s.load image = { s with mem := Memory.storeBytes s.mem 0 image } :=
  if_neg (Nat.not_lt.2 h)

theorem load_of_gt (h : 256 < image.length) :
    s.load image = s.takeFault (.programTooLarge image.length) :=
  if_pos h

theorem load_nil : s.load [] = s :=
  load_of_le s (Nat.zero_le 256)

/-- A cell after a load: the image's byte where the image reaches, the old byte past it. -/
theorem get_load (h : image.length ≤ 256) (c : Nat) :
    Memory.get (s.load image).mem c =
      if hc : c < image.length then image[c] else Memory.get s.mem c := by
  simp [load_of_le s h, get_storeBytes]

end Load

/-- Settles O2: an image that fits only stores its bytes, a longer one only takes a fault, and an empty one
leaves the reset state. -/
theorem loadInstallsTheImageOrRejectsIt : Obligations.LoadInstallsTheImageOrRejectsIt := by
  intro image s
  refine ⟨fun h => ⟨fun k hk => ?_, fun c hc => ?_, ?_⟩, fun h => ?_, fun init => ?_⟩
  · rw [get_load s h, dif_pos hk]
  · rw [get_load s h, dif_neg (Nat.not_lt.2 hc)]
  · rw [load_of_le s h]
    exact ⟨fun _ => rfl, rfl, rfl, rfl⟩
  · rw [load_of_gt s h]
    exact ⟨rfl, step_stopped nofun⟩
  · rw [load_nil, step_resetWith]

/-! ## The one load of a session -/

section Session

variable {c : Command} {cs : List Command} {q q' : Session}

theorem Session.after_loadAllowed {o : Host.Outcome State Fault Refusal} (e : Session.after o = .next q) :
    q.loadAllowed = false := by
  cases o with
  | next t =>
    cases e
    rfl
  | fault f => cases e
  | refused r => cases e

/-- After an accepted command other than reset no load may come, whatever the bit was before. -/
theorem Session.apply_loadAllowed (hc : ∀ init, c ≠ .reset init) (e : q.apply c = .next q') :
    q'.loadAllowed = false := by
  cases c with
  | reset init => exact absurd rfl (hc init)
  | load image =>
    simp only [Session.apply] at e
    split at e
    · cases e
      rfl
    · cases e
  | step => exact Session.after_loadAllowed e
  | run => exact Session.after_loadAllowed e

/-- The inversion of `applyAll`: the first command was accepted, and the others from what it left. -/
theorem Session.applyAll_cons (e : Session.applyAll (c :: cs) q = .next q') :
    ∃ p, q.apply c = .next p ∧ Session.applyAll cs p = .next q' := by
  cases hp : q.apply c with
  | next p => exact ⟨p, rfl, by simpa only [Session.applyAll, hp] using e⟩
  | fault f => simp only [Session.applyAll, hp, reduceCtorEq] at e
  | refused r => simp only [Session.applyAll, hp, reduceCtorEq] at e

theorem Session.applyAll_loadAllowed (hcs : ∀ d ∈ cs, ∀ init, d ≠ .reset init) (hq : q.loadAllowed = false)
    (e : Session.applyAll cs q = .next q') : q'.loadAllowed = false := by
  induction cs generalizing q with
  | nil =>
    cases e
    exact hq
  | cons c cs ih =>
    obtain ⟨hc, hcs⟩ := List.forall_mem_cons.1 hcs
    obtain ⟨p, ep, e⟩ := Session.applyAll_cons e
    exact ih hcs (Session.apply_loadAllowed hc ep) e

theorem Session.load_refused (image : List Byte) (hq : q.loadAllowed = false) :
    q.apply (.load image) = .refused .loadOutsideInterface := by
  simp [Session.apply, hq]

end Session

/-- Settles O3: the first command clears the bit, and no command but reset sets it again. -/
theorem loadComesAtMostOnceBeforeTheFirstStep : Obligations.LoadComesAtMostOnceBeforeTheFirstStep := by
  refine ⟨fun _ _ => rfl, fun c cs q q' image hcs e => ?_, run_resetWith⟩
  obtain ⟨hc, hcs⟩ := List.forall_mem_cons.1 hcs
  obtain ⟨p, ep, e⟩ := Session.applyAll_cons e
  exact Session.load_refused image (Session.applyAll_loadAllowed hcs (Session.apply_loadAllowed hc ep) e)

end Sys2Proof.Machine
end
